-- ==== Sys2Proof/Word.lean ====
section
/-! DEFINITION. Words of the block: the byte, the command word and the response word
(`00_scope.md` R9, `30_encoding.md` R70, R73). Bit 0 is the least significant. -/

namespace Sys2Proof

/-- A byte of the stream, a cell of `mem`, an element of a frame: unsigned, 0..255 (R9). -/
abbrev Byte := BitVec 8

/-- A command word: `op` in bits 15..12, `arg` in bits 11..0 (R70). -/
abbrev CommandWord := BitVec 16

/-- A response word: `kind` in bits 15..14, `value` in bits 13..0 (R73). -/
abbrev ResponseWord := BitVec 16

end Sys2Proof
end

