-- ==== Sys2Proof/Config.lean ====
section
/-! DEFINITION. The configuration `(C, H)` of an instance (`00_scope.md` R7, R8, R10; `10_state.md` R20, R24). -/

namespace Sys2Proof

/-- `H`, the frame-handler: the document's "reference/pointer to a frame-handler callback supplied at construction" (R7;
`10_state.md` R20). It is a sink that returns nothing (`60_exceptions.md` R174, R176), so which sink it is is all the block has
of it; it is held as a number, as plain data (DESIGN CHOICE, log 13). -/
structure Handler where
  /-- Which sink, among all a system may have. -/
  ref : Nat
deriving DecidableEq, Repr

/-- What construction fixes for the life of the block: `Config = (C, H)` (R10), with `1 <= C <= 4095` (R7). A capacity
outside these bounds is excluded by the type, as `93_implementation_defined.md` U10 asks, and so is a missing handler, as U6 asks. -/
structure Config where
  /-- `C`, the number of byte cells. -/
  capacity : Nat
  /-- `H`, the handler every FRAME event goes to. -/
  handler : Handler
  /-- `mod C` needs `C >= 1` (D1). -/
  capacity_pos : 1 ≤ capacity
  /-- A `GET` index has 12 bits (D1). -/
  capacity_le : capacity ≤ 4095
deriving DecidableEq, Repr

/-- DESIGN CHOICE (log 2): `C` is open; the instance `State.reset` starts has the capacity the document recommends,
`C_REC = 262` (R7), and the handler of reference 0 (DESIGN CHOICE, log 13). Unsafe for a statement about `State.reset` alone, so
statements quantify over `Config`. -/
def Config.recommended : Config := ⟨262, ⟨0⟩, by decide, by decide⟩

end Sys2Proof
end

