-- ==== Sys2Proof/Machine/Params.lean ====
section
/-! DEFINITION. The fixed constants of the block (`00_scope.md` R7; not configurable, D23) and the widths of its two
registers (D3). UNVERIFIED against the original code (log 10): the spec says its literals are unaudited (91 N8). -/

namespace Sys2Proof.Machine

/-- `SYNC`, the fixed leading byte of a frame (R7). -/
def SYNC : Byte := 0x0C

/-- `TERM`, the fixed trailing byte of a frame (R7). -/
def TERM : Byte := 0x0D

/-- `PSIZE_OFF`, the logical offset of the payload-size byte (R7). -/
def PSIZE_OFF : Nat := 4

/-- `OVERHEAD`: `L = P + 7` (R7). -/
def OVERHEAD : Nat := 7

/-- `MIN_LEN`, the length below which the completeness check returns (R7). -/
def MIN_LEN : Nat := 7

/-- `MAX_L`, the largest value of `L` (R7). -/
def MAX_L : Nat := 255 + 7

/-- `GUARD_LEN = C + 1`, the length at which the capacity guard fires (R7, D2, `90_conflicts.md` C1). The guard itself
is the verbatim comparison, `State.guardFires`. -/
def guardLen (cfg : Config) : Nat := cfg.capacity + 1

/-- The least `w` with `n < 2^w`. -/
def bitsFor (n : Nat) : Nat := if n = 0 then 0 else Nat.log2 n + 1

/-- `LENW`, the least `w` with `2^w > C + 1` (R7). -/
def lenWidth (cfg : Config) : Nat := bitsFor (cfg.capacity + 1)

/-- `IDXW`, the least `w` with `2^w >= C` (R7). -/
def startWidth (cfg : Config) : Nat := bitsFor (cfg.capacity - 1)

end Sys2Proof.Machine
end

