-- ==== Sys2Proof/Machine/Frame.lean ====
section
/-! DEFINITION. The wire frame as a byte list (`30_encoding.md` R60 to R68). -/

namespace Sys2Proof.Machine

/-- `sum8(f)`: the sum of the elements mod 256, unsigned 8-bit wraparound (`00_scope.md` R9). -/
def sum8 (f : List Byte) : Byte := f.foldl (· + ·) 0

/-- Element `i` of a byte list (R9); outside the list it is not used. -/
def byteAt (f : List Byte) (i : Nat) : Byte := f.getD i 0

/-- `L = P + 7`, in integers, not reduced mod 256 (R62). -/
def frameLength (p : Byte) : Nat := p.toNat + OVERHEAD

/-- `Chk(f) = sum8(f[1 .. n-3])` (R63). -/
def chk (f : List Byte) : Byte := sum8 ((f.drop 1).take (f.length - 3))

/-- `ValidFrame(f)`: what the completeness check and the validator test (R66). It does not look at offset 0. -/
abbrev ValidFrame (f : List Byte) : Prop :=
  MIN_LEN ≤ f.length ∧ f.length = frameLength (byteAt f PSIZE_OFF) ∧
    byteAt f (f.length - 1) = TERM ∧ chk f = byteAt f (f.length - 2)

/-- `WellFormedFrame(f)`: a valid list that begins with the sync byte (R67). -/
abbrev WellFormedFrame (f : List Byte) : Prop := ValidFrame f ∧ byteAt f 0 = SYNC

/-- `MkFrame(h1, h2, h3, p)` (R68): a helper of the spec for properties and scripts, not a function of the block. -/
def mkFrame (h1 h2 h3 : Byte) (p : List Byte) : List Byte :=
  let body := [h1, h2, h3, BitVec.ofNat 8 p.length] ++ p
  [SYNC] ++ body ++ [sum8 body, TERM]

end Sys2Proof.Machine
end

