-- ==== Sys2Proof/Machine/Memory.lean ====
section
/-! DEFINITION. The physical slot space as a list of (slot, byte) cells in one canonical form (`10_state.md` R21;
`20_memory.md` R40 (a), R45): slots strictly rising, no cell equal to what an unlisted slot reads as. -/

namespace Sys2Proof.Machine

/-- The byte cells, sparse. -/
abbrev Memory := List Host.Cell

/-- What an unlisted slot reads as. DESIGN CHOICE (log 3): the spec leaves a cell unspecified until it is written and
lets a model hold any value, "all zero is fine" (`93_implementation_defined.md` U7). Unsafe for a statement that reads
such a cell; no legal run does (R48). -/
def Memory.unlisted : Byte := 0

/-- `MemRead(a, 1)` (R9, R45). -/
def Memory.read : Memory → Nat → Byte
  | [], _ => Memory.unlisted
  | (k, v) :: m, a => if k = a then v else Memory.read m a

/-- List the byte `b` at `a`, in its place. -/
def Memory.put : Memory → Nat → Byte → Memory
  | [], a, b => [(a, b)]
  | (k, v) :: m, a, b =>
    if a < k then (a, b) :: (k, v) :: m
    else if a = k then (a, b) :: m
    else (k, v) :: Memory.put m a b

/-- Take every entry at `a` out, so that a write is read back whatever the form of the list. -/
def Memory.erase : Memory → Nat → Memory
  | [], _ => []
  | (k, v) :: m, a => if k = a then Memory.erase m a else (k, v) :: Memory.erase m a

/-- `MemWrite(a, 1, b)` (R9, R45), keeping the canonical form. -/
def Memory.write (m : Memory) (a : Nat) (b : Byte) : Memory :=
  if b = Memory.unlisted then m.erase a else m.put a b

/-- Canonical from slot `lo` on. -/
def Memory.wfFrom : Nat → Memory → Bool
  | _, [] => true
  | lo, (k, v) :: m => decide (lo ≤ k) && decide (v ≠ Memory.unlisted) && Memory.wfFrom (k + 1) m

/-- The canonical form. -/
def Memory.wf (m : Memory) : Bool := Memory.wfFrom 0 m

/-- Every listed slot exists: it is below `c` (R21). -/
def Memory.within (c : Nat) (m : Memory) : Bool := m.all fun cell => decide (cell.1 < c)

end Sys2Proof.Machine
end

