-- ==== Sys2Proof/Machine/State.lean ====
section
/-! DEFINITION. The state of the machine (`10_state.md` R20 to R25), the outputs it gives (`30_encoding.md` R73;
`60_exceptions.md` R174), the contract faults (R171), and the state after hardware reset (R35;
`70_reset_and_hazards.md` R190). -/

namespace Sys2Proof.Machine

/-- The contract faults of `60_exceptions.md` R171. The spec gives each its whole effect (nothing changes, the response is
`ERR(code)`, the next command executes normally), so raising one is a NEXT state with that response
(`State.raise`; log 5) and no step answers `Host.Outcome.fault`. -/
inductive Fault where
  /-- Code 1, raised by the decoder for a word that matches no command (R72). Safe: it is the spec's own effect. -/
  | illegalCommand
  /-- Code 2, raised by `GET i` when `i >= len` (R86). Safe: it is the spec's own effect. -/
  | indexOutOfRange
  /-- Code 3, raised by `APPEND b` when `len > C` (R85). Safe: it is the spec's own effect. -/
  | appendOverrun
deriving DecidableEq, Repr

/-- Reasons to give an instruction no meaning. The spec's `refuse` treatments (U2, U5, U6, U10, U11) are moves the
model does not have at all, so none of them is raised. -/
inductive Refusal where
  /-- For an arm of `exec` without a meaning; no arm raises it now. Safe. -/
  | notModelled (mnemonic : String)
deriving DecidableEq, Repr

/-- The response to a command (`30_encoding.md` R73); its 16-bit word is `Response.word`. -/
inductive Response where
  /-- Kind 0. -/
  | ok
  /-- Kind 1: a byte zero-extended, or `len`, or `C`. -/
  | data (v : Nat)
  /-- Kind 2: a contract fault. -/
  | err (f : Fault)
deriving DecidableEq, Repr

/-- What the block gives its surroundings (`70_reset_and_hazards.md` R196, R197). -/
inductive Event where
  /-- The one response of a command, to the host. -/
  | response (r : Response)
  /-- `FRAME(f, L)`, the invocation of the handler `h` with the `L` bytes of `f` (`60_exceptions.md` R174). -/
  | frame (h : Handler) (f : List Byte) (L : Nat)
deriving DecidableEq, Repr

/-- The machine: `Config x State` of `00_scope.md` R10, that is its configuration and the triple `(mem, start, len)` that is its whole architectural state
(`10_state.md` R20), and the two lists through which it meets its surroundings (log 1). -/
structure State where
  /-- The configuration `(C, H)`, fixed at construction (R20, R24; log 2, log 13). It is beside the triple, not in it, and no step
  changes it. -/
  cfg : Config
  /-- The backing storage `mem[0 .. C-1]` (R21). -/
  mem : Memory
  /-- The physical slot of logical index 0 (R22; log 4). -/
  start : Nat
  /-- The number of bytes appended since the last reset, `0 .. C+1` (R23, R27; log 4). -/
  len : Nat
  /-- The model's own (log 1): command words the host has issued and the block has not yet taken, in order. -/
  pending : List CommandWord
  /-- The model's own (log 1): responses and FRAME events given so far, oldest first, the observation of R197. -/
  trace : List Event
deriving DecidableEq, Repr

/-- Hardware reset, which is construction (`70_reset_and_hazards.md` R190, R192; `10_state.md` R35): a capacity is chosen and a
handler bound, both in `cfg`; `len = 0`, `start = 0`, no event, and a storage whose content the spec leaves unspecified, hence an
argument here. `ws` are the commands the host is going to issue. -/
def State.powerOn (cfg : Config) (mem : Memory) (ws : List CommandWord) : State :=
  ⟨cfg, mem, 0, 0, ws, []⟩

/-- The machine right after reset: the recommended capacity (DESIGN CHOICE, log 2), the handler of reference 0 (DESIGN CHOICE,
log 13), nothing listed in `mem` (DESIGN CHOICE,
log 3), no command issued and nothing given (DESIGN CHOICE, log 1). -/
def State.reset : State := State.powerOn Config.recommended [] []

end Sys2Proof.Machine
end

