-- ==== Sys2Proof/Machine/Operands.lean ====
section
/-! DEFINITION. How values leave the block: the fault codes and the response word (`30_encoding.md` R73; `60_exceptions.md`
R171). The operand forms of a command word are in `Decode.lean` (R70). -/

namespace Sys2Proof.Machine

/-- The code of a contract fault (R171). -/
def Fault.code : Fault → Nat
  | .illegalCommand => 1
  | .indexOutOfRange => 2
  | .appendOverrun => 3

/-- `Rsp[15:14]` (R73). -/
def Response.kind : Response → BitVec 2
  | .ok => 0
  | .data _ => 1
  | .err _ => 2

/-- `Rsp[13:0]` as a number (R73). -/
def Response.value : Response → Nat
  | .ok => 0
  | .data v => v
  | .err f => f.code

/-- The response word (R73). -/
def Response.word (r : Response) : ResponseWord := r.kind ++ BitVec.ofNat 14 r.value

/-- A byte as response data, zero-extended (R86). -/
def byteData (b : Byte) : Response := .data b.toNat

end Sys2Proof.Machine
end

