-- ==== Sys2Proof/Machine/Ops.lean ====
section
/-! DEFINITION. The operations every meaning is built from: addressing (`20_memory.md` R41), the five micro-operations
(`40_buffer_ops.md` R80 to R84), the outputs (`30_encoding.md` R73; `60_exceptions.md` R174), taking a contract fault (R171)
and the return of the handler (R176). -/

namespace Sys2Proof.Machine

/-- `C`. -/
def State.capacity (s : State) : Nat := s.cfg.capacity

/-- `slot(i) = (start + i) mod C` (R41), the sum not truncated first (R129 b). -/
def State.slot (s : State) (i : Nat) : Nat := (s.start + i) % s.capacity

/-- `BufAppend(b)` (R80). No check: the checks are the commands'. -/
def State.bufAppend (b : Byte) (s : State) : State :=
  { s with mem := s.mem.write (s.slot s.len) b, len := s.len + 1 }

/-- `BufGet(i)` (R81). The precondition `i < len` is the caller's; no meaning reads outside it (R111; log 7). -/
def State.bufGet (s : State) (i : Nat) : Byte := s.mem.read (s.slot i)

/-- `BufLen()` (R82). -/
def State.bufLen (s : State) : Nat := s.len

/-- `BufCap()` (R83). -/
def State.bufCap (s : State) : Nat := s.capacity

/-- `BufReset()` (R84): the cells keep their bytes. -/
def State.bufReset (s : State) : State := { s with len := 0, start := 0 }

/-- `Content(S)`, the candidate frame: `BufGet(0) .. BufGet(len-1)` in index order (`10_state.md` R28). -/
def State.content (s : State) : List Byte := (List.range s.len).map s.bufGet

/-- Give one event. -/
def State.emit (e : Event) (s : State) : State := { s with trace := s.trace ++ [e] }

/-- `respond` (R9, R73): the one response of a command. -/
def State.respond (r : Response) (s : State) : State := s.emit (.response r)

/-- `emit FRAME(f, L)` (R174): the invocation of the one handler `H` bound at construction. It changes nothing but the output; in the atomic step the
handler has finished when it is done (R46, R178). -/
def State.emitFrame (f : List Byte) (L : Nat) (s : State) : State := s.emit (.frame s.cfg.handler f L)

/-- `raise` (R9, R171): taking a contract fault. The response is `ERR(code)`; `len`, `start` and `mem` are unchanged, no frame
is given, and the next command executes normally. -/
def State.raise (f : Fault) (s : State) : State := s.respond (.err f)

/-- The return of the handler (R176): nothing is restored; the buffer is reset. -/
def State.handlerReturn (s : State) : State := s.bufReset

end Sys2Proof.Machine
end

