-- ==== Sys2Proof/Machine/Flags.lean ====
section
/-! DEFINITION. The block has no status flag (`10_state.md` R32). What stands here are the conditions its commands test,
each once (`42_checksum_validator.md` R129 (g), (h)), and the checksum they need (R123). -/

namespace Sys2Proof.Machine

/-- Step 1, the idle guard: `len = 0` and `b != 0x0C` (R101). -/
def State.isNoise (b : Byte) (s : State) : Bool := decide (s.len = 0) && decide (b ≠ SYNC)

/-- Step 2, the capacity guard: `C = len - 1`, verbatim, over the integers (R102, D2). -/
def State.guardFires (s : State) : Bool := decide ((s.bufCap : Int) = (s.bufLen : Int) - 1)

/-- Step 4a: `len < 7` (R104). -/
def State.isShort (s : State) : Bool := decide (s.len < MIN_LEN)

/-- Step 4b: `expected = P + 7` (R105). Read from the buffer every time; not state. -/
def State.expected (s : State) : Nat := frameLength (s.bufGet PSIZE_OFF)

/-- Step 4c: `len != expected` (R106). -/
def State.isIncomplete (s : State) : Bool := decide (s.len ≠ s.expected)

/-- Step 5a: `len < 3` or the last byte is not `0x0D` (R121, R122). -/
def State.badTerminator (s : State) : Bool := decide (s.len < 3) || decide (s.bufGet (s.len - 1) ≠ TERM)

/-- Step 5b: the bytes at offsets `1 .. len-3` added mod 256, in index order (R123). -/
def State.checksum (s : State) : Byte :=
  (List.range (s.len - 3)).foldl (fun acc k => acc + s.bufGet (k + 1)) 0

/-- Step 5c: the computed checksum differs from the byte at `len - 2` (R124). -/
def State.badChecksum (s : State) : Bool := decide (s.checksum ≠ s.bufGet (s.len - 2))

/-- `GET i`: `i >= len` (R86). -/
def State.indexOut (i : Nat) (s : State) : Bool := decide (s.len ≤ i)

/-- `APPEND b`: `len > C` (R85). -/
def State.appendOver (s : State) : Bool := decide (s.capacity < s.len)

end Sys2Proof.Machine
end

