-- ==== Sys2Proof/Machine/Buffer.lean ====
section
/-! DEFINITION. The commands on the circular byte buffer: `RESET`, `APPEND`, `GET`, `LENGTH`, `CAPACITY`
(`40_buffer_ops.md` R85 to R89). -/

namespace Sys2Proof.Machine

/-- `RESET` (R89). -/
def execReset (s : State) : Host.Outcome State Fault Refusal :=
  .next (s.bufReset.respond .ok)

/-- `APPEND b` (R85): no idle guard, no capacity guard, no completeness check. -/
def execAppend (b : Byte) (s : State) : Host.Outcome State Fault Refusal :=
  if s.appendOver then .next (s.raise .appendOverrun) else .next ((s.bufAppend b).respond .ok)

/-- `GET i` (R86). -/
def execGet (i : Nat) (s : State) : Host.Outcome State Fault Refusal :=
  if s.indexOut i then .next (s.raise .indexOutOfRange) else .next (s.respond (byteData (s.bufGet i)))

/-- `LENGTH` (R87). -/
def execLength (s : State) : Host.Outcome State Fault Refusal :=
  .next (s.respond (.data s.bufLen))

/-- `CAPACITY` (R88). -/
def execCapacity (s : State) : Host.Outcome State Fault Refusal :=
  .next (s.respond (.data s.bufCap))

end Sys2Proof.Machine
end

