-- ==== Sys2Proof/Machine/Validator.lean ====
section
/-! DEFINITION. Step 5 of `PROCESS`: the checksum validator, reject and dispatch (`42_checksum_validator.md` R120 to R126). -/

namespace Sys2Proof.Machine

/-- Step 5d, dispatch (R126): copy out `Content(S)`, emit `FRAME(f, L)` while the buffer still holds the frame, and reset the
buffer when the handler has returned. -/
def State.dispatchFrame (s : State) : State := (s.emitFrame s.content s.len).handlerReturn

/-- `Validate()` (R120): the terminator is tested before the checksum; a reject leaves everything as it is (R125). -/
def State.validate (s : State) : State :=
  if s.badTerminator then s
  else if s.badChecksum then s
  else s.dispatchFrame

end Sys2Proof.Machine
end

