-- ==== Sys2Proof/Machine/Parser.lean ====
section
/-! DEFINITION. `PROCESS`, the frame parser state machine (`41_frame_parser.md` R100 to R106). -/

namespace Sys2Proof.Machine

/-- Step 2 (R102): the buffer is reset before the append when the guard fires; nothing is written when it does not. -/
def State.capacityGuard (s : State) : State := if s.guardFires then s.bufReset else s

/-- Steps 2 and 3 (R102, R103). -/
def State.accept (b : Byte) (s : State) : State := s.capacityGuard.bufAppend b

/-- Steps 4 and 5 (R104 to R106, R120), on the state after the append. -/
def State.complete (s : State) : State :=
  if s.isShort then s
  else if s.isIncomplete then s
  else s.validate

/-- Steps 1 to 5 (R100). Emptiness is judged on entry: a buffer emptied by step 2 is not tested again (R101). -/
def State.processByte (b : Byte) (s : State) : State :=
  if s.isNoise b then s else (s.accept b).complete

/-- `PROCESS b` (R100): the response is always `OK`, after the FRAME event if there is one. -/
def execProcess (b : Byte) (s : State) : Host.Outcome State Fault Refusal :=
  .next ((s.processByte b).respond .ok)

end Sys2Proof.Machine
end

