-- ==== Sys2Proof/Syntax.lean ====
section
/-! DEFINITION. The abstract command set (`30_encoding.md` R69; `00_scope.md` R10), one constructor per row of
`spec/opcode_table.json`. -/

namespace Sys2Proof

/-- A command of the host. -/
inductive Instr where
  /-- `PROCESS b`: the next byte of the stream (R100). -/
  | process (b : Byte)
  /-- `RESET` (R89). -/
  | reset
  /-- `APPEND b`: the byte to append (R85). -/
  | append (b : Byte)
  /-- `GET i`: a logical index, a position in the candidate frame (R86); an index is a count, not a word. -/
  | get (i : Nat)
  /-- `LENGTH` (R87). -/
  | length
  /-- `CAPACITY` (R88). -/
  | capacity
deriving DecidableEq, Repr

end Sys2Proof
end

