-- ==== Sys2Proof/Machine/Dispatch.lean ====
section
/-! DEFINITION. One arm per command. -/

namespace Sys2Proof.Machine

def exec (i : Instr) (s : State) : Host.Outcome State Fault Refusal :=
  match i with
  | .process b => Sys2Proof.Machine.execProcess b s
  | .reset => Sys2Proof.Machine.execReset s
  | .append b => Sys2Proof.Machine.execAppend b s
  | .get k => Sys2Proof.Machine.execGet k s
  | .length => Sys2Proof.Machine.execLength s
  | .capacity => Sys2Proof.Machine.execCapacity s

end Sys2Proof.Machine
end

