-- ==== Sys2Proof/WellFormed.lean ====
section
/-! DEFINITION. Which commands can be written as a command word (`30_encoding.md` R69, R70, R75). -/

namespace Sys2Proof

/-- An operand fits its field: an index is at most 4095 (R69, R75); a byte fits by its type. -/
def Instr.wellFormed : Instr → Bool
  | .process _ => true
  | .reset => true
  | .append _ => true
  | .get i => decide (i ≤ 4095)
  | .length => true
  | .capacity => true

end Sys2Proof
end

