-- ==== Sys2Proof/Decode.lean ====
section
/-! DEFINITION. The command decoder and encoder (`30_encoding.md` R70 to R72; `92_eei_decisions.md` D5, D9, D19). -/

namespace Sys2Proof

/-- Why a word is reserved: the three classes of R72. -/
inductive Reserved where
  /-- `op` in `0x6 .. 0xF`, with any `arg`. -/
  | op
  /-- `PROCESS` or `APPEND` with `arg[11:8] != 0`. -/
  | highArg
  /-- `RESET`, `LENGTH` or `CAPACITY` with `arg != 0`. -/
  | arg
deriving DecidableEq, Repr

/-- `W[15:12]` (R70). -/
def opField (w : CommandWord) : BitVec 4 := w.extractLsb' 12 4

/-- `W[11:0]` (R70). -/
def argField (w : CommandWord) : BitVec 12 := w.extractLsb' 0 12

/-- A byte operand: `arg[7:0]`, with `arg[11:8] = 0` (R70, R72). -/
def byteOperand (arg : BitVec 12) : Except Reserved Byte :=
  if arg.extractLsb' 8 4 = 0 then .ok (arg.extractLsb' 0 8) else .error .highArg

/-- A command without operand has `arg = 0` (R70, R72). -/
def noOperand (arg : BitVec 12) (i : Instr) : Except Reserved Instr :=
  if arg = 0 then .ok i else .error .arg

/-- The decoder: total, every 16-bit word is one of the six commands or reserved, by name (R71, R72). -/
def decode (w : CommandWord) : Except Reserved Instr :=
  match (opField w).toNat with
  | 0 => (byteOperand (argField w)).map .process
  | 1 => noOperand (argField w) .reset
  | 2 => (byteOperand (argField w)).map .append
  | 3 => .ok (.get (argField w).toNat)
  | 4 => noOperand (argField w) .length
  | 5 => noOperand (argField w) .capacity
  | _ => .error .op

/-- The command word made of `op` and `arg`: `op` in the high bits (R70). -/
def commandWord (op : BitVec 4) (arg : BitVec 12) : CommandWord := op ++ arg

/-- The `arg` of a byte operand: `arg[11:8] = 0`, `arg[7:0] = b` (R70). -/
def byteArg (b : Byte) : BitVec 12 := (0 : BitVec 4) ++ b

/-- The encoder: the word of a well-formed command (R71). -/
def encode : Instr → CommandWord
  | .process b => commandWord 0x0 (byteArg b)
  | .reset => commandWord 0x1 0
  | .append b => commandWord 0x2 (byteArg b)
  | .get i => commandWord 0x3 (BitVec.ofNat 12 i)
  | .length => commandWord 0x4 0
  | .capacity => commandWord 0x5 0

/-- One row of the opcode map: a word selects it exactly when `(W and mask) = match` (R71). -/
structure OpcodeRow where
  /-- The bits the row fixes. -/
  mask : CommandWord
  /-- Their values. -/
  bits : CommandWord
deriving DecidableEq, Repr

/-- `W` selects the row (R71). -/
def OpcodeRow.selects (r : OpcodeRow) (w : CommandWord) : Bool := w &&& r.mask == r.bits

/-- The row of a command, as R71's table has it. The decoder does not use it; the statements compare the two. -/
def opcodeRow : Instr → OpcodeRow
  | .process _ => ⟨0xFF00, 0x0000⟩
  | .reset => ⟨0xFFFF, 0x1000⟩
  | .append _ => ⟨0xFF00, 0x2000⟩
  | .get _ => ⟨0xF000, 0x3000⟩
  | .length => ⟨0xFFFF, 0x4000⟩
  | .capacity => ⟨0xFFFF, 0x5000⟩

/-- The opcode map of R71, in its order. -/
def opcodeMap : List OpcodeRow :=
  [⟨0xFF00, 0x0000⟩, ⟨0xFFFF, 0x1000⟩, ⟨0xFF00, 0x2000⟩, ⟨0xF000, 0x3000⟩, ⟨0xFFFF, 0x4000⟩, ⟨0xFFFF, 0x5000⟩]

/-- The command word of an opcode-table word of `nbits` bits: bit 0 is the least significant, the bits above `nbits`
are 0. A command is one 16-bit word, handed over whole, so there is no byte order to choose (R43, R70). -/
def tableWord (nbits w : Nat) : CommandWord := BitVec.ofNat 16 (w % 2 ^ nbits)

/-- What the decoder reads from a word of the opcode table; none where it refuses. -/
def decodeTableWord (nbits w : Nat) : Option Instr :=
  match decode (tableWord nbits w) with
  | .ok i => some i
  | .error _ => none

end Sys2Proof
end

