-- ==== Sys2Proof/Machine/Fetch.lean ====
section
/-! DEFINITION. Taking the next command from the host (`00_scope.md` R10; `60_exceptions.md` R173: decode first). -/

namespace Sys2Proof.Machine

/-- The machine once it has taken the command at the head of what is pending. -/
def State.takeCommand (s : State) : State := { s with pending := s.pending.tail }

/-- The next command word, if the host has issued one. -/
def State.nextWord (s : State) : Option CommandWord := s.pending.head?

/-- A reserved word raises `IllegalCommand` and changes nothing else (R72, R171). -/
def State.illegalWord (s : State) : State := s.takeCommand.raise .illegalCommand

/-- The host issues `w` as the very next command. -/
def State.issue (s : State) (w : CommandWord) : State := { s with pending := w :: s.pending }

end Sys2Proof.Machine
end

