-- ==== Sys2Proof/Machine/Step.lean ====
section
/-! DEFINITION. One step: one command, from its issue to its response (`20_memory.md` R46; `70_reset_and_hazards.md` R196). -/

namespace Sys2Proof.Machine

/-- One command of `00_scope.md` R10. With nothing pending the block waits, ready for another command (R197; log 9). -/
def step (s : State) : Host.Outcome State Fault Refusal :=
  match s.nextWord with
  | none => .next s
  | some w =>
    match decode w with
    | .ok i => exec i s.takeCommand
    | .error _ => .next s.illegalWord

/-- `s` with an opcode-table word issued as the very next command (log 9). -/
def State.withFetchWord (s : State) (nbits w : Nat) : State := s.issue (tableWord nbits w)

end Sys2Proof.Machine
end

