-- ==== Sys2Proof/Machine/Labels.lean ====
section
/-! DEFINITION. The labels the spec defines over a state and a command, for reading and for stating properties; none is stored
and no meaning uses one (`10_state.md` R34; `41_frame_parser.md` R107; `60_exceptions.md` R170). -/

namespace Sys2Proof.Machine

/-- The parser phases of R34. -/
inductive Phase where
  | idle | header | accum | stale | full
deriving DecidableEq, Repr

/-- The phase of a state at the moment a `PROCESS` arrives; `FULL` takes precedence (R34). -/
def State.phase (s : State) : Phase :=
  if s.len = guardLen s.cfg then .full
  else if s.len = 0 then .idle
  else if s.len < MIN_LEN then .header
  else if s.len < s.expected then .accum
  else .stale

/-- The outcomes of R107. -/
inductive ProcessOutcome where
  | noise | short | acc | badTerm | badSum | dispatch
deriving DecidableEq, Repr

/-- The outcome of steps 4 and 5 on the state after the append (R107). -/
def State.completeOutcome (s : State) : ProcessOutcome :=
  if s.isShort then .short
  else if s.isIncomplete then .acc
  else if s.badTerminator then .badTerm
  else if s.badChecksum then .badSum
  else .dispatch

/-- The outcome `PROCESS b` ends with (R107). -/
def State.processOutcome (b : Byte) (s : State) : ProcessOutcome :=
  if s.isNoise b then .noise else (s.accept b).completeOutcome

/-- The document's error categories of R170. Category (4), capacity overrun, is no outcome: it is `State.guardFires`. -/
inductive ErrorCategory where
  | streamNoise | incompleteness | badFrame
deriving DecidableEq, Repr

/-- The category of an outcome (R107, R170). -/
def ProcessOutcome.category : ProcessOutcome → Option ErrorCategory
  | .noise => some .streamNoise
  | .short => some .incompleteness
  | .acc => some .incompleteness
  | .badTerm => some .badFrame
  | .badSum => some .badFrame
  | .dispatch => none

end Sys2Proof.Machine
end

