-- ==== Sys2Proof/Machine/Run.lean ====
section
/-! DEFINITION. Runs of commands and their observation (`00_scope.md` R10; `70_reset_and_hazards.md` R197). -/

namespace Sys2Proof.Machine

/-- A command sequence applied in order (R10). -/
def runCommands : List Instr → State → Host.Outcome State Fault Refusal
  | [], s => .next s
  | i :: is, s =>
    match exec i s with
    | .next t => runCommands is t
    | .fault f => .fault f
    | .refused r => .refused r

/-- `FEED b0 .. bn`: one `PROCESS` per byte, in order (`30_encoding.md` R76). -/
def feed (bs : List Byte) : List Instr := bs.map .process

/-- One `APPEND` per byte, in order. -/
def appendAll (bs : List Byte) : List Instr := bs.map .append

/-- The FRAME events of an observation, in order. -/
def framesOf (tr : List Event) : List (List Byte × Nat) :=
  tr.filterMap fun
    | .frame _ f L => some (f, L)
    | .response _ => none

/-- The responses of an observation, in order. -/
def responsesOf (tr : List Event) : List Response :=
  tr.filterMap fun
    | .frame _ _ _ => none
    | .response r => some r

/-- The event of an `OK`. -/
def okEvent : Event := .response .ok

/-- The state of a next-state outcome. -/
def nextState? : Host.Outcome State Fault Refusal → Option State
  | .next s => some s
  | .fault _ => none
  | .refused _ => none

end Sys2Proof.Machine
end

