-- ==== Sys2Proof/Machine/Script.lean ====
section
/-! DEFINITION. The script syntax and its pseudo-instructions (`30_encoding.md` R75, R76; `92_eei_decisions.md` D18). A line is a
list of characters; what the syntax leaves open is log 11. -/

namespace Sys2Proof.Machine

/-- Blanks between the words of a line. -/
def isBlank (c : Char) : Bool := c == ' ' || c == '\t' || c == '\r'

/-- A word that has been read backwards, if there is one. -/
def closeWord : List Char → List (List Char)
  | [] => []
  | w => [w.reverse]

/-- The words of a line: separated by blanks, up to a `;`, which starts a comment (R75). -/
def lineWords : List Char → List Char → List (List Char)
  | acc, [] => closeWord acc
  | acc, c :: cs =>
    if c == ';' then closeWord acc
    else if isBlank c then closeWord acc ++ lineWords [] cs
    else lineWords (c :: acc) cs

/-- The value of a digit. -/
def digitValue (c : Char) : Option Nat :=
  if '0'.toNat ≤ c.toNat ∧ c.toNat ≤ '9'.toNat then some (c.toNat - '0'.toNat)
  else if 'a'.toNat ≤ c.toNat ∧ c.toNat ≤ 'f'.toNat then some (c.toNat - 'a'.toNat + 10)
  else if 'A'.toNat ≤ c.toNat ∧ c.toNat ≤ 'F'.toNat then some (c.toNat - 'A'.toNat + 10)
  else none

/-- The number written by digits of a base, after the digits already read. -/
def digitsValue (base : Nat) : Nat → List Char → Option Nat
  | acc, [] => some acc
  | acc, c :: cs =>
    match digitValue c with
    | some d => if d < base then digitsValue base (acc * base + d) cs else none
    | none => none

/-- A hexadecimal (`0x..`) or decimal number (R75). -/
def number : List Char → Option Nat
  | [] => none
  | '0' :: 'x' :: [] => none
  | '0' :: 'x' :: ds => digitsValue 16 0 ds
  | ds => digitsValue 10 0 ds

/-- A byte operand: a byte above 255 cannot be assembled (R75). -/
def scriptByte (w : List Char) : Option Byte :=
  match number w with
  | some n => if n ≤ 255 then some (BitVec.ofNat 8 n) else none
  | none => none

/-- Several byte operands. -/
def scriptBytes : List (List Char) → Option (List Byte)
  | [] => some []
  | w :: ws =>
    match scriptByte w, scriptBytes ws with
    | some b, some bs => some (b :: bs)
    | _, _ => none

/-- An index operand: an index above 4095 cannot be assembled (R75). -/
def scriptIndex (w : List Char) : Option Nat :=
  match number w with
  | some n => if n ≤ 4095 then some n else none
  | none => none

/-- `FEEDFRAME h1 h2 h3 : p0 .. pk` (R76): `FEED` of the bytes of `MkFrame`; a payload above 255 bytes has no frame (R68). -/
def feedFrame (h1 h2 h3 : Byte) (p : List Byte) : Option (List Instr) :=
  if p.length ≤ 255 then some (feed (mkFrame h1 h2 h3 p)) else none

/-- The operands of `FEEDFRAME`. -/
def scriptFeedFrame : List (List Char) → Option (List Instr)
  | a :: b :: c :: [':'] :: ps =>
    match scriptByte a, scriptByte b, scriptByte c, scriptBytes ps with
    | some h1, some h2, some h3, some p => feedFrame h1 h2 h3 p
    | _, _, _, _ => none
  | _ => none

/-- One line of a script: no command (a blank line or a comment), one command, or the expansion of a pseudo-instruction; none
where it cannot be assembled (R75, R76). -/
def assembleWords : List (List Char) → Option (List Instr)
  | [] => some []
  | ['P', 'R', 'O', 'C', 'E', 'S', 'S'] :: [w] => (scriptByte w).map fun b => [.process b]
  | ['R', 'E', 'S', 'E', 'T'] :: [] => some [.reset]
  | ['A', 'P', 'P', 'E', 'N', 'D'] :: [w] => (scriptByte w).map fun b => [.append b]
  | ['G', 'E', 'T'] :: [w] => (scriptIndex w).map fun i => [.get i]
  | ['L', 'E', 'N', 'G', 'T', 'H'] :: [] => some [.length]
  | ['C', 'A', 'P', 'A', 'C', 'I', 'T', 'Y'] :: [] => some [.capacity]
  | ['F', 'E', 'E', 'D'] :: w :: ws => (scriptBytes (w :: ws)).map feed
  | ['F', 'E', 'E', 'D', 'F', 'R', 'A', 'M', 'E'] :: ws => scriptFeedFrame ws
  | _ => none

/-- One line of a script (R75). -/
def assembleLine (line : List Char) : Option (List Instr) := assembleWords (lineWords [] line)

/-- A whole script, a line at a time (R75). -/
def assemble : List (List Char) → Option (List Instr)
  | [] => some []
  | l :: ls =>
    match assembleLine l, assemble ls with
    | some is, some js => some (is ++ js)
    | _, _ => none

/-- The command words of a script. -/
def assembleToWords (lines : List (List Char)) : Option (List CommandWord) := (assemble lines).map (List.map encode)

end Sys2Proof.Machine
end

