-- ==== Sys2Proof/Safety.lean ====
section
/-! DEFINITION. What counts as a reachable state, a legal state and a safe run, in the terms the statements use. -/

namespace Sys2Proof.Machine

/-- The states of a run (`70_reset_and_hazards.md` R190, R197): hardware reset of any configuration, with any content of the
storage (in canonical form, within the `C` cells) and any commands to come, then any number of steps. -/
inductive Reachable : State → Prop where
  | powerOn (cfg : Config) (mem : Memory) (ws : List CommandWord) :
      mem.wf = true → mem.within cfg.capacity = true → Reachable (State.powerOn cfg mem ws)
  | step (s t : State) : Reachable s → Machine.step s = .next t → Reachable t

/-- The legal values of `10_state.md` R25: the memory in its canonical form and within the `C` cells, `start` in `0 .. C-1`,
`len` in `0 .. C+1`. -/
abbrev State.Inv (s : State) : Prop :=
  s.mem.wf = true ∧ s.mem.within s.capacity = true ∧ s.start < s.capacity ∧ s.len ≤ s.capacity + 1

/-- What every FRAME event of an observation satisfies (`42_checksum_validator.md` R127, `43_stream_behaviour.md` R142): it goes to the
handler of the configuration, its two arguments agree, its length, checksum and terminator are right, and its length is in bounds. -/
def State.FramesValid (s : State) : Prop :=
  ∀ (h : Handler) (f : List Byte) (L : Nat), .frame h f L ∈ s.trace →
    h = s.cfg.handler ∧ f.length = L ∧ ValidFrame f ∧ L ≤ min MAX_L (guardLen s.cfg)

/-- No contract fault has been answered: a run whose observation holds an `ERR` is to be treated as a faulted run
(`60_exceptions.md` R171). -/
def State.errFree (s : State) : Bool :=
  s.trace.all fun
    | .response (.err _) => false
    | _ => true

/-- Two machines the surroundings cannot tell apart (`20_memory.md` R48; `93_implementation_defined.md` U7): everything is the same
but for cells outside the logical content. -/
abbrev State.SameView (s t : State) : Prop :=
  s.cfg = t.cfg ∧ s.start = t.start ∧ s.len = t.len ∧ s.content = t.content ∧ s.pending = t.pending ∧ s.trace = t.trace

end Sys2Proof.Machine
end

