-- ==== Sys2Proof/Certificates/Slice0/Obligations.lean ====
section
/-! DEFINITION. The statements for the provers. `C` is `s.capacity` throughout, and every statement is over any legal `C`.
A response and a FRAME event appear as what is appended to `trace`, and a command issued as the head of `pending`: these two
fields are the model's own (log 1). A storage is any list of cells; that reset storage lists nothing (log 3) is used nowhere. -/

open Sys2Proof Sys2Proof.Machine

/-! ### Encoding -/

/-- Tier 3: no bit of a command is lost between its word and its meaning (R70, R71). -/
def Obligations.DecodeEncodeGivesCommand : Prop :=
  ∀ i : Instr, i.wellFormed = true → decode (encode i) = .ok i

/-- Every word that is a command has that command's one encoding (R71). -/
def Obligations.EncodeDecodeGivesWord : Prop :=
  ∀ (w : CommandWord) (i : Instr), decode w = .ok i → encode i = w ∧ i.wellFormed = true

/-- R71: the rows of the opcode map, their operands, and that no word selects two of them. -/
def Obligations.DecodeFollowsOpcodeMap : Prop :=
  (∀ w : CommandWord,
    (∀ b, decode w = .ok (.process b) ↔ w &&& 0xFF00 = 0x0000 ∧ b = w.extractLsb' 0 8) ∧
    (decode w = .ok .reset ↔ w &&& 0xFFFF = 0x1000) ∧
    (∀ b, decode w = .ok (.append b) ↔ w &&& 0xFF00 = 0x2000 ∧ b = w.extractLsb' 0 8) ∧
    (∀ k, decode w = .ok (.get k) ↔ w &&& 0xF000 = 0x3000 ∧ k = (w.extractLsb' 0 12).toNat) ∧
    (decode w = .ok .length ↔ w &&& 0xFFFF = 0x4000) ∧
    (decode w = .ok .capacity ↔ w &&& 0xFFFF = 0x5000)) ∧
  opcodeMap.Pairwise fun r r' => ∀ w, ¬ (r.selects w = true ∧ r'.selects w = true)

/-- R72: a word is reserved exactly when it matches no row; the three classes; what the block answers to it. -/
def Obligations.ReservedWordsRaiseIllegalCommand : Prop :=
  ∀ w : CommandWord,
    ((∃ e, decode w = .error e) ↔ ∀ r ∈ opcodeMap, r.selects w = false) ∧
    (decode w = .error .op ↔ 6 ≤ (w.extractLsb' 12 4).toNat) ∧
    (decode w = .error .highArg ↔
      (w.extractLsb' 12 4 = 0x0 ∨ w.extractLsb' 12 4 = 0x2) ∧ w.extractLsb' 8 4 ≠ 0) ∧
    (decode w = .error .arg ↔
      (w.extractLsb' 12 4 = 0x1 ∨ w.extractLsb' 12 4 = 0x4 ∨ w.extractLsb' 12 4 = 0x5) ∧ w.extractLsb' 0 12 ≠ 0) ∧
    ∀ (s : State) (rest : List CommandWord), s.pending = w :: rest → (∀ r ∈ opcodeMap, r.selects w = false) →
      step s = .next { s with pending := rest, trace := s.trace ++ [.response (.err .illegalCommand)] }

/-- A few words written out from the spec's encodings, and a few reserved ones. -/
def Obligations.SpecWordsDecodeAsTheSpecSays : Prop :=
  decode 0b0000000010100101 = .ok (.process 0xA5) ∧
  decode 0b0001000000000000 = .ok .reset ∧
  decode 0b0010000011111111 = .ok (.append 0xFF) ∧
  decode 0b0011000100000110 = .ok (.get 262) ∧
  decode 0b0011111111111111 = .ok (.get 4095) ∧
  decode 0b0100000000000000 = .ok .length ∧
  decode 0b0101000000000000 = .ok .capacity ∧
  decode 0xF123 = .error .op ∧ decode 0x0100 = .error .highArg ∧ decode 0x2100 = .error .highArg ∧
  decode 0x1001 = .error .arg ∧ decode 0x4001 = .error .arg ∧ decode 0x5800 = .error .arg

/-- The fields of the response word, for a value that fits its field; kind 3 is never produced; and the words themselves: `OK` is all
zeros, `DATA(v)` and `ERR(code)` have kinds 1 and 2 above their value. -/
def Obligations.ResponseWordHoldsKindAndValue : Prop :=
  ∀ r : Response,
    r.word.extractLsb' 14 2 = r.kind ∧ r.kind ≠ 3 ∧
    (r.value < 2 ^ 14 → (r.word.extractLsb' 0 14).toNat = r.value) ∧
    Response.ok.word = 0x0000 ∧ (∀ v, v < 2 ^ 14 → (Response.data v).word = 0x4000 + BitVec.ofNat 16 v) ∧
    ∀ f : Fault, (Response.err f).word = 0x8000 + BitVec.ofNat 16 f.code

/-- From a legal state, the data of every response fits 13 bits. -/
def Obligations.ResponseDataFitsThirteenBits : Prop :=
  ∀ (i : Instr) (s t : State) (v : Nat), s.Inv → exec i s = .next t →
    t.trace = s.trace ++ [.response (.data v)] → v < 2 ^ 13

/-- Whatever a script assembles to can be written as command words. -/
def Obligations.AssembledCommandsAreWellFormed : Prop :=
  ∀ (lines : List (List Char)) (is : List Instr), assemble lines = some is → ∀ i ∈ is, i.wellFormed = true

/-! ### Steps -/

/-- A step runs the decoded command, once the word is taken from what is pending. -/
def Obligations.StepRunsDecodedCommand : Prop :=
  ∀ (s : State) (w : CommandWord) (rest : List CommandWord) (i : Instr),
    s.pending = w :: rest → decode w = .ok i → step s = exec i { s with pending := rest }

/-- With no command issued the block waits (the model's choice, log 9). -/
def Obligations.StepWaitsWithNothingPending : Prop :=
  ∀ s : State, s.pending = [] → step s = .next s

/-- A word issued by `withFetchWord` is the very next command. -/
def Obligations.IssuedTableWordRunsNext : Prop :=
  ∀ (s : State) (nbits w : Nat) (i : Instr),
    decodeTableWord nbits w = some i → step (s.withFetchWord nbits w) = exec i s

/-- Every command completes in every state, and so does every step: the block is always ready for another command. -/
def Obligations.EveryCommandCompletes : Prop :=
  (∀ (i : Instr) (s : State), ∃ t, exec i s = .next t ∧ t.pending = s.pending) ∧ ∀ s : State, ∃ t, step s = .next t

/-- One response for each command taken; at most one FRAME event, only from `PROCESS`, to the handler bound at construction, and before
its `OK`. -/
def Obligations.OneResponsePerCommandFrameBeforeOk : Prop :=
  ∀ (s : State) (w : CommandWord) (rest : List CommandWord), s.pending = w :: rest →
    ∃ t, step s = .next t ∧ t.pending = rest ∧
      ((∃ r, t.trace = s.trace ++ [.response r]) ∨
        ∃ b f L, decode w = .ok (.process b) ∧ t.trace = s.trace ++ [.frame s.cfg.handler f L, okEvent])

/-- No step changes the capacity or the handler, and the observation only grows. -/
def Obligations.StepKeepsCapacityAndObservation : Prop :=
  ∀ s t : State, step s = .next t → t.cfg = s.cfg ∧ s.trace <+: t.trace

/-! ### Reset and invariants -/

/-- R35: hardware reset of any configuration with any storage, and the `RESET` command. -/
def Obligations.ResetValues : Prop :=
  (∀ (cfg : Config) (mem : Memory) (ws : List CommandWord),
    (State.powerOn cfg mem ws).len = 0 ∧ (State.powerOn cfg mem ws).start = 0 ∧
    (State.powerOn cfg mem ws).mem = mem ∧ (State.powerOn cfg mem ws).cfg = cfg ∧
    (State.powerOn cfg mem ws).trace = []) ∧
  State.reset.len = 0 ∧ State.reset.start = 0 ∧
  ∀ s : State, ∃ t, exec .reset s = .next t ∧ t.len = 0 ∧ t.start = 0 ∧ t.mem = s.mem

/-- The legal values hold after hardware reset. -/
def Obligations.LegalValuesAtReset : Prop :=
  State.reset.Inv ∧
  ∀ (cfg : Config) (mem : Memory) (ws : List CommandWord),
    mem.wf = true → mem.within cfg.capacity = true → (State.powerOn cfg mem ws).Inv

/-- Tier 3: every step keeps the legal values of R25: canonical memory within the `C` cells, `start < C`, `len <= C + 1`. -/
def Obligations.StepKeepsLegalValues : Prop :=
  ∀ s t : State, s.Inv → step s = .next t → t.Inv

/-- R26. -/
def Obligations.StartIsZeroInEveryReachableState : Prop :=
  ∀ s : State, Reachable s → s.start = 0 ∧ ∀ i, s.slot i = i % s.capacity

/-- R27: the range of `len`, that `PROCESS` never appends at `len > C` and `APPEND` faults there, that `C + 1` is reached from `C`, and
that `len` grows only by an append. -/
def Obligations.LengthStaysWithinGuardLength : Prop :=
  (∀ s : State, Reachable s → s.len ≤ s.capacity + 1 ∧ s.capacityGuard.len ≤ s.capacity ∧
    ∀ b, s.capacity < s.len →
      exec (.append b) s = .next { s with trace := s.trace ++ [.response (.err .appendOverrun)] }) ∧
  (∀ (s : State) (b : Byte), s.len = s.capacity →
    s.guardFires = false ∧ (s.accept b).len = s.capacity + 1 ∧
    ∃ t, exec (.append b) s = .next t ∧ t.len = s.capacity + 1) ∧
  ∀ (i : Instr) (s t : State), exec i s = .next t → s.len < t.len →
    ∃ b, (i = .append b ∨ i = .process b) ∧ t.len = s.len + 1 ∧ t.mem = (s.bufAppend b).mem

/-- The widths of R7 are the least that hold the legal values of the two registers. -/
def Obligations.RegisterWidthsAreLeast : Prop :=
  ∀ (cfg : Config),
    (cfg.capacity + 1 < 2 ^ lenWidth cfg ∧ ∀ w, cfg.capacity + 1 < 2 ^ w → lenWidth cfg ≤ w) ∧
    (cfg.capacity ≤ 2 ^ startWidth cfg ∧ ∀ w, cfg.capacity ≤ 2 ^ w → startWidth cfg ≤ w)

/-- Tier 3: every step keeps `start = 0`, which hardware reset gives (the step under R26). -/
def Obligations.StepKeepsStartZero : Prop :=
  (∀ (cfg : Config) (mem : Memory) (ws : List CommandWord), (State.powerOn cfg mem ws).start = 0) ∧
  ∀ s t : State, s.start = 0 → step s = .next t → t.start = 0 ∧ ∀ i, t.slot i = i % t.capacity

/-- Tier 3: every step keeps the legal values together with the validity of every FRAME event in the observation, which hardware
reset gives (the step under R127 and R142). -/
def Obligations.StepKeepsFramesValid : Prop :=
  (∀ (cfg : Config) (mem : Memory) (ws : List CommandWord), (State.powerOn cfg mem ws).FramesValid) ∧
  ∀ s t : State, s.Inv → s.FramesValid → step s = .next t → t.FramesValid

/-! ### The buffer commands -/

/-- R89: `RESET` empties the buffer in every state, keeps the cells, gives no FRAME event; after it the idle guard applies. -/
def Obligations.ResetCommandEmptiesBuffer : Prop :=
  ∀ s : State,
    exec .reset s = .next { s with len := 0, start := 0, trace := s.trace ++ [okEvent] } ∧
    (s.len = 0 → s.start = 0 → exec .reset s = .next { s with trace := s.trace ++ [okEvent] }) ∧
    (∀ b, b ≠ 0x0C → runCommands [.reset, .process b] s =
      .next { s with len := 0, start := 0, trace := s.trace ++ [okEvent, okEvent] }) ∧
    runCommands [.reset, .process 0x0C] s =
      .next { s with mem := s.mem.write 0 0x0C, len := 1, start := 0, trace := s.trace ++ [okEvent, okEvent] }

/-- R85: `APPEND` with room, at the capacity too, and past it. -/
def Obligations.AppendStoresOrOverruns : Prop :=
  ∀ (s : State) (b : Byte),
    (s.len ≤ s.capacity → exec (.append b) s =
      .next { s with mem := s.mem.write ((s.start + s.len) % s.capacity) b, len := s.len + 1,
                     trace := s.trace ++ [okEvent] }) ∧
    (s.capacity < s.len → exec (.append b) s =
      .next { s with trace := s.trace ++ [.response (.err .appendOverrun)] })

/-- R86: `GET` inside and outside the content; after `RESET` every index is outside; at `len = C + 1` indices 0 and `C` agree and
read the last byte appended. -/
def Obligations.GetReadsInsideAndFaultsOutside : Prop :=
  ∀ (s : State) (k : Nat),
    (k < s.len → exec (.get k) s =
      .next { s with trace := s.trace ++ [.response (.data (s.mem.read ((s.start + k) % s.capacity)).toNat)] }) ∧
    (s.len ≤ k → exec (.get k) s =
      .next { s with trace := s.trace ++ [.response (.err .indexOutOfRange)] }) ∧
    (runCommands [.reset, .get k] s =
      .next { s with len := 0, start := 0, trace := s.trace ++ [okEvent, .response (.err .indexOutOfRange)] }) ∧
    (s.len = s.capacity + 1 → exec (.get 0) s = exec (.get s.capacity) s) ∧
    ∀ b, s.len = s.capacity → ∃ t, runCommands [.append b, .get 0] s = .next t ∧
      t.trace = s.trace ++ [okEvent, .response (.data b.toNat)]

/-- R87, R88: the answers of `LENGTH` and `CAPACITY`, in every state. -/
def Obligations.LengthAndCapacityAnswer : Prop :=
  ∀ s : State,
    exec .length s = .next { s with trace := s.trace ++ [.response (.data s.len)] } ∧
    exec .capacity s = .next { s with trace := s.trace ++ [.response (.data s.cfg.capacity)] }

/-- The frame of the commands that store nothing: `RESET`, `GET`, `LENGTH`, `CAPACITY`. -/
def Obligations.NonStoringCommandsFrame : Prop :=
  ∀ (i : Instr) (s t : State), (i = .reset ∨ (∃ k, i = .get k) ∨ i = .length ∨ i = .capacity) → exec i s = .next t →
    (∀ a, t.mem.read a = s.mem.read a) ∧ t.mem = s.mem ∧ t.cfg = s.cfg ∧ t.pending = s.pending ∧
    (i ≠ .reset → t.start = s.start ∧ t.len = s.len) ∧ (i = .reset → t.start = 0 ∧ t.len = 0) ∧
    ∃ r, t.trace = s.trace ++ [.response r]

/-- The frame of `APPEND`: the one cell it stores to is `slot(len)`; past the guard length it stores nothing. -/
def Obligations.AppendFrame : Prop :=
  ∀ (b : Byte) (s t : State), exec (.append b) s = .next t →
    t.cfg = s.cfg ∧ t.start = s.start ∧ t.pending = s.pending ∧
    (s.len ≤ s.capacity → t.mem.read (s.slot s.len) = b ∧ ∀ a, a ≠ s.slot s.len → t.mem.read a = s.mem.read a) ∧
    (s.capacity < s.len → ∀ a, t.mem.read a = s.mem.read a)

/-- A read command changes nothing, and asked again it answers the same; `RESET` twice is `RESET` once (R47, in part). -/
def Obligations.ReadsRepeatAndResetIsIdempotent : Prop :=
  (∀ (i : Instr) (s t : State), ((∃ k, i = .get k) ∨ i = .length ∨ i = .capacity) → exec i s = .next t →
    ∃ r, t = { s with trace := s.trace ++ [.response r] } ∧
      exec i t = .next { t with trace := t.trace ++ [.response r] }) ∧
  ∀ s t : State, exec .reset s = .next t → exec .reset t = .next { t with trace := t.trace ++ [okEvent] }

/-- R90: `n <= C` bytes appended to an empty buffer are read back in order, whatever `start`; with `n = C + 1` only index 0
differs, and reads the last byte. -/
def Obligations.CircularAddressing : Prop :=
  ∀ (s : State) (bs : List Byte), s.len = 0 → s.start < s.capacity →
    (bs.length ≤ s.capacity → ∃ t, runCommands (appendAll bs) s = .next t ∧ t.len = bs.length ∧
      ∀ k (h : k < bs.length), exec (.get k) t =
        .next { t with trace := t.trace ++ [.response (.data (bs[k]'h).toNat)] }) ∧
    (bs.length = s.capacity + 1 → ∃ t, runCommands (appendAll bs) s = .next t ∧ t.len = bs.length ∧
      exec (.get 0) t = .next { t with trace := t.trace ++ [.response (.data (byteAt bs s.capacity).toNat)] } ∧
      ∀ k (h : k < bs.length), 1 ≤ k → exec (.get k) t =
        .next { t with trace := t.trace ++ [.response (.data (bs[k]'h).toNat)] })

/-- R29: what the append at `len = C` does, and that below it no append of a reachable state wraps. -/
def Obligations.AppendAtCapacityAliasesIndexZero : Prop :=
  (∀ (s : State) (b : Byte), s.Inv → s.len = s.capacity →
    ∃ t, exec (.append b) s = .next t ∧ t.len = s.capacity + 1 ∧ s.slot s.len = s.start ∧ t.slot s.capacity = t.slot 0 ∧
      byteAt t.content 0 = b ∧ byteAt t.content s.capacity = b ∧
      ∀ k, 1 ≤ k → k ≤ s.capacity - 1 → byteAt t.content k = byteAt s.content k) ∧
  ∀ s : State, Reachable s → s.len < s.capacity → s.slot s.len = s.len

/-! ### PROCESS -/

/-- R101: the idle guard, and that the sync value is tested nowhere else. -/
def Obligations.ProcessDropsNoise : Prop :=
  ∀ (s : State) (b : Byte),
    (s.len = 0 → b ≠ 0x0C → exec (.process b) s = .next { s with trace := s.trace ++ [okEvent] }) ∧
    (s.len ≠ 0 ∨ b = 0x0C → exec (.process b) s = .next ((s.capacityGuard.bufAppend b).complete.respond .ok))

/-- R102: the guard fires exactly at `C = len - 1` over the integers, that is `len = C + 1`; then the buffer is reset and the
byte, whatever its value, becomes logical index 0. -/
def Obligations.CapacityGuardRestartsWithoutSync : Prop :=
  ∀ s : State,
    (s.guardFires = true ↔ (s.capacity : Int) = (s.len : Int) - 1) ∧ (s.guardFires = true ↔ s.len = guardLen s.cfg) ∧
    (s.guardFires = true → s.capacityGuard = { s with len := 0, start := 0 }) ∧
    (s.guardFires = false → s.capacityGuard = s) ∧
    ∀ b, s.len = s.capacity + 1 → exec (.process b) s =
      .next { s with mem := s.mem.write 0 b, start := 0, len := 1, trace := s.trace ++ [okEvent] }

/-- R104: below seven bytes the byte is appended and nothing else happens. -/
def Obligations.ProcessAppendsUntilSevenBytes : Prop :=
  ∀ (s : State) (b : Byte), (s.len ≠ 0 ∨ b = 0x0C) → s.len ≠ s.capacity + 1 → s.len + 1 < 7 →
    exec (.process b) s =
      .next { s with mem := s.mem.write ((s.start + s.len) % s.capacity) b, len := s.len + 1,
                     trace := s.trace ++ [okEvent] } ∧
    s.processOutcome b = .short

/-- R106: from seven bytes on, a candidate whose length is not `P + 7`, unreduced, is kept and nothing else happens. -/
def Obligations.ProcessKeepsIncompleteCandidate : Prop :=
  ∀ (s : State) (b : Byte), s.len ≠ s.capacity + 1 → 7 ≤ s.len + 1 →
    s.len + 1 ≠ (byteAt (s.bufAppend b).content 4).toNat + 7 →
    exec (.process b) s =
      .next { s with mem := s.mem.write ((s.start + s.len) % s.capacity) b, len := s.len + 1,
                     trace := s.trace ++ [okEvent] } ∧
    s.processOutcome b = .acc

/-- R122, R124: a candidate of its declared length with a wrong last byte or a wrong checksum is rejected: no event, no reset. -/
def Obligations.ProcessRejectLeavesBuffer : Prop :=
  ∀ (s : State) (b : Byte), s.len ≠ s.capacity + 1 → 7 ≤ s.len + 1 →
    let f := (s.bufAppend b).content
    s.len + 1 = (byteAt f 4).toNat + 7 → (b ≠ 0x0D ∨ sum8 ((f.drop 1).take (s.len + 1 - 3)) ≠ byteAt f (s.len - 1)) →
    exec (.process b) s =
      .next { s with mem := s.mem.write ((s.start + s.len) % s.capacity) b, len := s.len + 1,
                     trace := s.trace ++ [okEvent] } ∧
    s.processOutcome b = (if b ≠ 0x0D then .badTerm else .badSum)

/-- R126: a candidate that passes the tests is copied out, delivered once before the `OK`, and the buffer is reset. -/
def Obligations.ProcessDispatchesValidFrame : Prop :=
  ∀ (s : State) (b : Byte), s.len ≠ s.capacity + 1 → 7 ≤ s.len + 1 →
    let f := (s.bufAppend b).content
    s.len + 1 = (byteAt f 4).toNat + 7 → b = 0x0D → sum8 ((f.drop 1).take (s.len + 1 - 3)) = byteAt f (s.len - 1) →
    exec (.process b) s =
      .next { s with mem := s.mem.write ((s.start + s.len) % s.capacity) b, len := 0, start := 0,
                     trace := s.trace ++ [.frame s.cfg.handler f (s.len + 1), okEvent] } ∧
    s.processOutcome b = .dispatch

/-- R66: a FRAME event is emitted exactly when the content after the append is a `ValidFrame`. -/
def Obligations.FrameEmittedExactlyForValidFrame : Prop :=
  ∀ (s t : State) (b : Byte), (s.len ≠ 0 ∨ b = 0x0C) → exec (.process b) s = .next t →
    (ValidFrame (s.accept b).content →
      t.trace = s.trace ++ [.frame s.cfg.handler (s.accept b).content (s.accept b).len, okEvent] ∧ t.len = 0) ∧
    (¬ ValidFrame (s.accept b).content → t.trace = s.trace ++ [okEvent] ∧ t.len = (s.accept b).len)

/-- R107: the table of outcomes. -/
def Obligations.ProcessOutcomeTable : Prop :=
  ∀ (s t : State) (b : Byte), exec (.process b) s = .next t →
    (s.processOutcome b = .noise ↔ s.len = 0 ∧ b ≠ 0x0C) ∧
    (s.processOutcome b = .noise → t = { s with trace := s.trace ++ [okEvent] } ∧ t.len = 0) ∧
    (s.processOutcome b = .short → (s.accept b).len < 7 ∧ t.len = (if s.guardFires then 1 else s.len + 1)) ∧
    (s.processOutcome b = .acc → s.guardFires = false ∧ 7 ≤ t.len ∧ t.len ≠ (t.bufGet 4).toNat + 7 ∧ t.len = s.len + 1) ∧
    (s.processOutcome b = .badTerm → s.guardFires = false ∧ t.len = (t.bufGet 4).toNat + 7 ∧
      t.bufGet (t.len - 1) ≠ 0x0D ∧ t.len = s.len + 1) ∧
    (s.processOutcome b = .badSum → s.guardFires = false ∧ t.len = (t.bufGet 4).toNat + 7 ∧
      t.bufGet (t.len - 1) = 0x0D ∧ chk t.content ≠ t.bufGet (t.len - 2) ∧ t.len = s.len + 1) ∧
    (s.processOutcome b = .dispatch → s.guardFires = false ∧ ValidFrame (s.bufAppend b).content ∧ t.len = 0) ∧
    (s.guardFires = true → s.processOutcome b = .short) ∧
    t.trace = s.trace ++ (if s.processOutcome b = .dispatch
      then [.frame s.cfg.handler (s.accept b).content (s.accept b).len, okEvent] else [okEvent])

/-- R144, its five facts, in every reachable state; the one cell that may change is `slot(len)` of the state the guard leaves. -/
def Obligations.SmallFactsAboutOneProcess : Prop :=
  ∀ (s t : State) (b : Byte), Reachable s → exec (.process b) s = .next t →
    (framesOf t.trace ≠ framesOf s.trace → b = 0x0D) ∧
    (∀ f L, framesOf t.trace = framesOf s.trace ++ [(f, L)] → L = s.len + 1 ∧ 6 ≤ s.len) ∧
    (t.len = 0 ↔ s.processOutcome b = .noise ∨ s.processOutcome b = .dispatch) ∧
    (t.len = 0 ∨ t.len = 1 ∨ t.len = s.len ∨ t.len = s.len + 1) ∧
    (∀ a, a ≠ s.capacityGuard.slot s.capacityGuard.len → t.mem.read a = s.mem.read a) ∧ (s.processOutcome b = .noise → t.mem = s.mem)

/-- The frame of `PROCESS`: noise stores nothing; any other byte is stored in the one cell `slot(len)` of the state the guard leaves,
a dispatch too; `start` changes only by a buffer reset. -/
def Obligations.ProcessFrame : Prop :=
  ∀ (b : Byte) (s t : State), exec (.process b) s = .next t →
    t.cfg = s.cfg ∧ t.pending = s.pending ∧
    (s.len = 0 ∧ b ≠ 0x0C → t.start = s.start ∧ t.len = s.len ∧ ∀ a, t.mem.read a = s.mem.read a) ∧
    (s.len ≠ 0 ∨ b = 0x0C →
      t.mem.read (s.capacityGuard.slot s.capacityGuard.len) = b ∧
      ∀ a, a ≠ s.capacityGuard.slot s.capacityGuard.len → t.mem.read a = s.mem.read a) ∧
    t.start = (if s.guardFires ∨ s.processOutcome b = .dispatch then 0 else s.start)

/-- R109: the transitions between the phases; where step 5 runs, `IDLE` after a dispatch and `STALE` (or `FULL`) after a reject. -/
def Obligations.PhaseTransitions : Prop :=
  ∀ (s t : State) (b : Byte), s.Inv → exec (.process b) s = .next t →
    (s.phase = .full → t.len = 1 ∧ t.phase = .header ∧ t.bufGet 0 = b) ∧
    (s.phase = .idle → b ≠ 0x0C → t.phase = .idle) ∧
    (s.phase = .idle → b = 0x0C → t.len = 1 ∧ t.phase = .header) ∧
    (s.phase = .header → s.len ≤ 5 → t.len = s.len + 1 ∧ (t.phase = .header ∨ t.phase = .full)) ∧
    (s.phase = .header → s.len = 6 → s.bufGet 4 = 0 →
      s.processOutcome b = .dispatch ∧ t.phase = .idle ∨
      (s.processOutcome b = .badTerm ∨ s.processOutcome b = .badSum) ∧ t.len = 7 ∧ (t.phase = .stale ∨ t.phase = .full)) ∧
    (s.phase = .header → s.len = 6 → s.bufGet 4 ≠ 0 → t.len = 7 ∧ (t.phase = .accum ∨ t.phase = .full)) ∧
    (s.phase = .accum → s.len + 1 < s.expected → t.len = s.len + 1 ∧ (t.phase = .accum ∨ t.phase = .full)) ∧
    (s.phase = .accum → s.len + 1 = s.expected →
      s.processOutcome b = .dispatch ∧ t.phase = .idle ∨
      (s.processOutcome b = .badTerm ∨ s.processOutcome b = .badSum) ∧ t.len = s.len + 1 ∧
        (t.phase = .stale ∨ t.phase = .full)) ∧
    (s.phase = .stale → t.len = s.len + 1 ∧ (t.phase = .stale ∨ t.phase = .full))

/-- From five retained bytes on, no command that retains a byte changes the payload size, for `C >= 5`. -/
def Obligations.PayloadSizeFixedUntilReset : Prop :=
  ∀ (i : Instr) (s t : State), s.Inv → 5 ≤ s.capacity → 5 ≤ s.len → s.len ≤ s.capacity → exec i s = .next t →
    t.len = s.len + 1 → t.bufGet 4 = s.bufGet 4

/-- R171: a contract fault is raised in its one case, changes nothing but the answer, and has its code. -/
def Obligations.ContractFaultChangesNothing : Prop :=
  (∀ (i : Instr) (s t : State) (f : Fault), exec i s = .next t →
    (t.trace = s.trace ++ [.response (.err f)] ↔
      (f = .indexOutOfRange ∧ ∃ k, i = .get k ∧ s.len ≤ k) ∨ (f = .appendOverrun ∧ ∃ b, i = .append b ∧ s.capacity < s.len)) ∧
    (t.trace = s.trace ++ [.response (.err f)] → t = { s with trace := t.trace })) ∧
  (∀ (s : State) (w : CommandWord) (rest : List CommandWord) (e : Reserved), s.pending = w :: rest → decode w = .error e →
    step s = .next { s with pending := rest, trace := s.trace ++ [.response (.err .illegalCommand)] }) ∧
  (Response.err .illegalCommand).word = 0x8001 ∧ (Response.err .indexOutOfRange).word = 0x8002 ∧
  (Response.err .appendOverrun).word = 0x8003

/-! ### Frames -/

/-- R68: `MkFrame` makes well-formed frames of the stated length, and every well-formed frame is one. -/
def Obligations.WellFormedFramesAreMkFrames : Prop :=
  (∀ (h1 h2 h3 : Byte) (p : List Byte), p.length ≤ 255 →
    WellFormedFrame (mkFrame h1 h2 h3 p) ∧ (mkFrame h1 h2 h3 p).length = p.length + 7) ∧
  ∀ f : List Byte, WellFormedFrame f →
    f = mkFrame (byteAt f 1) (byteAt f 2) (byteAt f 3) ((f.drop 5).take (byteAt f 4).toNat) ∧
    ((f.drop 5).take (byteAt f 4).toNat).length = (byteAt f 4).toNat

/-- R142: the length, checksum and terminator invariants of every FRAME event of every run, with the bounds on its length. -/
def Obligations.EveryFrameOfEveryRunIsValid : Prop :=
  ∀ (s : State) (h : Handler) (f : List Byte) (L : Nat), Reachable s → .frame h f L ∈ s.trace →
    h = s.cfg.handler ∧ f.length = L ∧ L = (byteAt f 4).toNat + 7 ∧ sum8 ((f.drop 1).take (L - 3)) = byteAt f (L - 2) ∧
    byteAt f (L - 1) = 0x0D ∧ 7 ≤ L ∧ L ≤ min 262 (s.capacity + 1)

/-! ### Streams -/

/-- R140: noise from an empty buffer; from a non-empty one every byte is retained. -/
def Obligations.IdleNoise : Prop :=
  (∀ (bs : List Byte) (s : State), s.len = 0 → 0x0C ∉ bs →
    runCommands (feed bs) s = .next { s with trace := s.trace ++ List.replicate bs.length okEvent }) ∧
  ∀ (s t : State) (b : Byte), s.len ≠ 0 → exec (.process b) s = .next t →
    t.mem.read (s.capacityGuard.slot s.capacityGuard.len) = b

/-- R141, the corrected statement. -/
def Obligations.SyncTestedOnlyOnEmptyEntry : Prop :=
  ∀ (s t : State) (b : Byte), exec (.process b) s = .next t →
    (s.len = 0 → t.len = 1 → b = 0x0C) ∧ (s.len = s.capacity + 1 → t.len = 1 ∧ t.bufGet 0 = b)

/-- R143: at most one FRAME event per `PROCESS`, and after one the buffer is empty. -/
def Obligations.AtMostOneDispatchPerProcess : Prop :=
  ∀ (s t : State) (b : Byte), exec (.process b) s = .next t →
    framesOf t.trace = framesOf s.trace ∨
    ∃ f L, framesOf t.trace = framesOf s.trace ++ [(f, L)] ∧ t.len = 0 ∧ t.content = []

/-- R145: a well-formed frame fed to an empty buffer, when it fits, when it is one byte too long, and when it is longer: then its first
`C + 2` bytes give no event and leave the last of them as a new candidate, and no event of the whole feed is the frame. -/
def Obligations.CleanFrameAcceptance : Prop :=
  ∀ (s : State) (f : List Byte), s.len = 0 → s.start = 0 → WellFormedFrame f →
    (f.length ≤ s.capacity → ∃ t, runCommands (feed f) s = .next t ∧ t.len = 0 ∧
      t.trace = s.trace ++ List.replicate (f.length - 1) okEvent ++ [.frame s.cfg.handler f f.length, okEvent]) ∧
    (f.length = s.capacity + 1 → ∃ t, runCommands (feed f) s = .next t ∧ t.len = 0 ∧
      t.trace = s.trace ++ List.replicate (f.length - 1) okEvent ++ [.frame s.cfg.handler (f.set 0 0x0D) f.length, okEvent]) ∧
    (s.capacity + 2 ≤ f.length → ∃ t, runCommands (feed (f.take (s.capacity + 2))) s = .next t ∧
      t.trace = s.trace ++ List.replicate (s.capacity + 2) okEvent ∧ t.content = [byteAt f (s.capacity + 1)] ∧
      ∃ u added, runCommands (feed f) s = .next u ∧ framesOf u.trace = framesOf s.trace ++ added ∧ ∀ p ∈ added, p.1 ≠ f)

/-- R146: back-to-back frames and clean noise. Each item is the noise before a frame, then the frame; `tail` is noise. -/
def Obligations.BackToBackFrames : Prop :=
  ∀ (s : State) (items : List (List Byte × List Byte)) (tail : List Byte), s.len = 0 → s.start = 0 →
    (∀ p ∈ items, 0x0C ∉ p.1 ∧ WellFormedFrame p.2 ∧ p.2.length ≤ s.capacity) → 0x0C ∉ tail →
    ∃ t, runCommands (feed (items.flatMap (fun p => p.1 ++ p.2) ++ tail)) s = .next t ∧ t.len = 0 ∧
      framesOf t.trace = framesOf s.trace ++ items.map (fun p => (p.2, p.2.length))

/-- From any state at all, `RESET` and then such a stream delivers every frame of it. -/
def Obligations.ResetRecoversSynchronisation : Prop :=
  ∀ (s : State) (items : List (List Byte × List Byte)),
    (∀ p ∈ items, 0x0C ∉ p.1 ∧ WellFormedFrame p.2 ∧ p.2.length ≤ s.capacity) →
    ∃ t, runCommands (.reset :: feed (items.flatMap (fun p => p.1 ++ p.2))) s = .next t ∧ t.len = 0 ∧
      framesOf t.trace = framesOf s.trace ++ items.map (fun p => (p.2, p.2.length))

/-- With `C <= 5` no input is ever dispatched. -/
def Obligations.SmallCapacityNeverDispatches : Prop :=
  ∀ (s : State) (bs : List Byte), s.Inv → s.capacity ≤ 5 →
    ∃ t, runCommands (feed bs) s = .next t ∧ framesOf t.trace = framesOf s.trace ∧ t.len ≤ 6

/-- R148: after a reject at `len = L` the next `C + 1 - L` bytes are absorbed, whatever they are, each with outcome `ACC`, and the byte
after them fires the guard and becomes logical index 0. -/
def Obligations.RejectedCandidateAbsorbsUntilOverrun : Prop :=
  ∀ (s₀ s : State) (b₀ : Byte) (bs : List Byte), s₀.Inv → exec (.process b₀) s₀ = .next s →
    (s₀.processOutcome b₀ = .badTerm ∨ s₀.processOutcome b₀ = .badSum) → bs.length = s.capacity + 1 - s.len →
    (∀ k, k < bs.length → ∃ u, runCommands (feed (bs.take k)) s = .next u ∧ u.len = s.len + k ∧
      u.processOutcome (byteAt bs k) = .acc) ∧
    ∃ t, runCommands (feed bs) s = .next t ∧ t.len = s.capacity + 1 ∧
      t.trace = s.trace ++ List.replicate bs.length okEvent ∧
      ∀ b, ∃ u, exec (.process b) t = .next u ∧ t.guardFires = true ∧ u.content = [b] ∧ u.trace = t.trace ++ [okEvent]

/-! ### What the surroundings can tell -/

/-- One step of two machines that differ only in cells outside the logical content answers alike and leaves such machines. -/
def Obligations.StepReadsOnlyLogicalContent : Prop :=
  ∀ s s' t : State, s.SameView s' → step s = .next t → ∃ t', step s' = .next t' ∧ t.SameView t'

/-- Tier 3: whatever the storage holds after hardware reset, the observation of a run is the same (R30, R48; U7). -/
def Obligations.PowerOnStorageIsUnobservable : Prop :=
  ∀ (cfg : Config) (m m' : Memory) (ws : List CommandWord) (k : Nat) (t : State),
    core.run k (State.powerOn cfg m ws) = .next t →
    ∃ t', core.run k (State.powerOn cfg m' ws) = .next t' ∧ t'.trace = t.trace ∧ t'.content = t.content
end

