-- ==== Sys2Proof/Laws/Memory.lean ====
section
/-! SUPPORT. The laws of the byte cells: a read after a write, and the canonical form kept by every operation. -/

namespace Sys2Proof.Laws

open Sys2Proof.Machine

@[simp] theorem read_nil (a : Nat) : Memory.read [] a = Memory.unlisted := rfl

theorem read_put (m : Memory) (a : Nat) (b : Byte) (x : Nat) :
    (m.put a b).read x = if x = a then b else m.read x := by
  induction m with
  | nil => simp only [Memory.put, Memory.read, eq_comm]
  | cons c m ih =>
    obtain ⟨k, v⟩ := c
    simp only [Memory.put]
    split
    · by_cases h : x = a
      · subst h; simp [Memory.read]
      · simp [Memory.read, h, Ne.symm h]
    · split
      · subst_vars
        by_cases h : x = k
        · subst h; simp [Memory.read]
        · simp [Memory.read, h, Ne.symm h]
      · simp only [Memory.read, ih]
        by_cases h : k = x
        · subst h; simp; intro h'; omega
        · simp [h]

theorem read_erase (m : Memory) (a x : Nat) :
    (m.erase a).read x = if x = a then Memory.unlisted else m.read x := by
  induction m with
  | nil => simp [Memory.erase]
  | cons c m ih =>
    obtain ⟨k, v⟩ := c
    simp only [Memory.erase]
    by_cases hk : k = a
    · subst hk
      by_cases hx : x = k
      · subst hx; simp [ih]
      · simp [ih, hx, Memory.read, Ne.symm hx]
    · by_cases hx : x = a
      · subst hx; simp [hk, Memory.read, ih]
      · simp [hk, Memory.read, ih, hx]

/-- A read after a write: the byte written at its slot, everything else as before. -/
theorem read_write (m : Memory) (a : Nat) (b : Byte) (x : Nat) :
    (m.write a b).read x = if x = a then b else m.read x := by
  unfold Memory.write
  split
  · next h => rw [read_erase, h]
  · rw [read_put]

@[simp] theorem read_write_same (m : Memory) (a : Nat) (b : Byte) : (m.write a b).read a = b := by
  simp [read_write]

theorem read_write_other (m : Memory) {a x : Nat} (b : Byte) (h : x ≠ a) :
    (m.write a b).read x = m.read x := by
  simp [read_write, h]

theorem wfFrom_mono {m : Memory} {lo lo' : Nat} (h : lo' ≤ lo) (hm : m.wfFrom lo = true) :
    m.wfFrom lo' = true := by
  cases m with
  | nil => rfl
  | cons c m =>
    simp only [Memory.wfFrom, Bool.and_eq_true, decide_eq_true_eq] at *
    exact ⟨⟨by omega, hm.1.2⟩, hm.2⟩

theorem wfFrom_put {m : Memory} {lo a : Nat} {b : Byte} (hb : b ≠ Memory.unlisted) (ha : lo ≤ a)
    (hm : m.wfFrom lo = true) : (m.put a b).wfFrom lo = true := by
  induction m generalizing lo with
  | nil => simp [Memory.put, Memory.wfFrom, ha, hb]
  | cons c m ih =>
    obtain ⟨k, v⟩ := c
    simp only [Memory.wfFrom, Bool.and_eq_true, decide_eq_true_eq] at hm
    simp only [Memory.put]
    split
    · next h =>
      simp only [Memory.wfFrom, Bool.and_eq_true, decide_eq_true_eq]
      exact ⟨⟨ha, hb⟩, ⟨⟨h, hm.1.2⟩, hm.2⟩⟩
    · split
      · next h =>
        simp only [Memory.wfFrom, Bool.and_eq_true, decide_eq_true_eq]
        exact ⟨⟨ha, hb⟩, h ▸ hm.2⟩
      · simp only [Memory.wfFrom, Bool.and_eq_true, decide_eq_true_eq]
        exact ⟨hm.1, ih (by omega) hm.2⟩

theorem wfFrom_erase {m : Memory} {lo : Nat} (a : Nat) (hm : m.wfFrom lo = true) :
    (m.erase a).wfFrom lo = true := by
  induction m generalizing lo with
  | nil => rfl
  | cons c m ih =>
    obtain ⟨k, v⟩ := c
    simp only [Memory.wfFrom, Bool.and_eq_true, decide_eq_true_eq] at hm
    simp only [Memory.erase]
    split
    · exact wfFrom_mono (by omega) (ih hm.2)
    · simp only [Memory.wfFrom, Bool.and_eq_true, decide_eq_true_eq]
      exact ⟨hm.1, ih hm.2⟩

/-- Every memory operation keeps the canonical form: writing. -/
theorem wf_write {m : Memory} (a : Nat) (b : Byte) (hm : m.wf = true) : (m.write a b).wf = true := by
  unfold Memory.write
  split
  · exact wfFrom_erase a hm
  · next hb => exact wfFrom_put hb (Nat.zero_le a) hm

@[simp] theorem wf_nil : Memory.wf [] = true := rfl

theorem within_put {m : Memory} {c a : Nat} (b : Byte) (ha : a < c) (hm : m.within c = true) :
    (m.put a b).within c = true := by
  induction m with
  | nil => simp [Memory.put, Memory.within, ha]
  | cons d m ih =>
    obtain ⟨k, v⟩ := d
    simp only [Memory.within, List.all_cons, Bool.and_eq_true, decide_eq_true_eq] at *
    simp only [Memory.put]
    split
    · simp only [List.all_cons, Bool.and_eq_true, decide_eq_true_eq]; exact ⟨ha, hm⟩
    · split
      · simp only [List.all_cons, Bool.and_eq_true, decide_eq_true_eq]; exact ⟨ha, hm.2⟩
      · simp only [List.all_cons, Bool.and_eq_true, decide_eq_true_eq]; exact ⟨hm.1, ih hm.2⟩

theorem within_erase {m : Memory} {c : Nat} (a : Nat) (hm : m.within c = true) :
    (m.erase a).within c = true := by
  induction m with
  | nil => rfl
  | cons d m ih =>
    obtain ⟨k, v⟩ := d
    simp only [Memory.within, List.all_cons, Bool.and_eq_true, decide_eq_true_eq] at *
    simp only [Memory.erase]
    split
    · exact ih hm.2
    · simp only [List.all_cons, Bool.and_eq_true, decide_eq_true_eq]; exact ⟨hm.1, ih hm.2⟩

/-- A write to an existing slot keeps the memory within the cells that exist. -/
theorem within_write {m : Memory} {c a : Nat} (b : Byte) (ha : a < c) (hm : m.within c = true) :
    (m.write a b).within c = true := by
  unfold Memory.write
  split
  · exact within_erase a hm
  · exact within_put b ha hm

end Sys2Proof.Laws
end

