-- ==== Sys2Proof/Laws/State.lean ====
section
/-! SUPPORT. Each update of the state, field by field. -/

namespace Sys2Proof.Laws

open Sys2Proof.Machine

variable (s : State) (b : Byte) (e : Event) (r : Response) (f : Fault) (w : CommandWord)

@[simp] theorem emit_cfg : (s.emit e).cfg = s.cfg := rfl
@[simp] theorem emit_mem : (s.emit e).mem = s.mem := rfl
@[simp] theorem emit_start : (s.emit e).start = s.start := rfl
@[simp] theorem emit_len : (s.emit e).len = s.len := rfl
@[simp] theorem emit_pending : (s.emit e).pending = s.pending := rfl
@[simp] theorem emit_trace : (s.emit e).trace = s.trace ++ [e] := rfl

@[simp] theorem respond_cfg : (s.respond r).cfg = s.cfg := rfl
@[simp] theorem respond_mem : (s.respond r).mem = s.mem := rfl
@[simp] theorem respond_start : (s.respond r).start = s.start := rfl
@[simp] theorem respond_len : (s.respond r).len = s.len := rfl
@[simp] theorem respond_pending : (s.respond r).pending = s.pending := rfl
@[simp] theorem respond_trace : (s.respond r).trace = s.trace ++ [.response r] := rfl

@[simp] theorem raise_cfg : (s.raise f).cfg = s.cfg := rfl
@[simp] theorem raise_mem : (s.raise f).mem = s.mem := rfl
@[simp] theorem raise_start : (s.raise f).start = s.start := rfl
@[simp] theorem raise_len : (s.raise f).len = s.len := rfl
@[simp] theorem raise_pending : (s.raise f).pending = s.pending := rfl
@[simp] theorem raise_trace : (s.raise f).trace = s.trace ++ [.response (.err f)] := rfl

@[simp] theorem bufAppend_cfg : (s.bufAppend b).cfg = s.cfg := rfl
@[simp] theorem bufAppend_mem : (s.bufAppend b).mem = s.mem.write (s.slot s.len) b := rfl
@[simp] theorem bufAppend_start : (s.bufAppend b).start = s.start := rfl
@[simp] theorem bufAppend_len : (s.bufAppend b).len = s.len + 1 := rfl
@[simp] theorem bufAppend_pending : (s.bufAppend b).pending = s.pending := rfl
@[simp] theorem bufAppend_trace : (s.bufAppend b).trace = s.trace := rfl

@[simp] theorem bufReset_cfg : s.bufReset.cfg = s.cfg := rfl
@[simp] theorem bufReset_mem : s.bufReset.mem = s.mem := rfl
@[simp] theorem bufReset_start : s.bufReset.start = 0 := rfl
@[simp] theorem bufReset_len : s.bufReset.len = 0 := rfl
@[simp] theorem bufReset_pending : s.bufReset.pending = s.pending := rfl
@[simp] theorem bufReset_trace : s.bufReset.trace = s.trace := rfl

@[simp] theorem dispatchFrame_cfg : s.dispatchFrame.cfg = s.cfg := rfl
@[simp] theorem dispatchFrame_mem : s.dispatchFrame.mem = s.mem := rfl
@[simp] theorem dispatchFrame_start : s.dispatchFrame.start = 0 := rfl
@[simp] theorem dispatchFrame_len : s.dispatchFrame.len = 0 := rfl
@[simp] theorem dispatchFrame_pending : s.dispatchFrame.pending = s.pending := rfl
@[simp] theorem dispatchFrame_trace : s.dispatchFrame.trace = s.trace ++ [.frame s.cfg.handler s.content s.len] := rfl

@[simp] theorem takeCommand_cfg : s.takeCommand.cfg = s.cfg := rfl
@[simp] theorem takeCommand_mem : s.takeCommand.mem = s.mem := rfl
@[simp] theorem takeCommand_start : s.takeCommand.start = s.start := rfl
@[simp] theorem takeCommand_len : s.takeCommand.len = s.len := rfl
@[simp] theorem takeCommand_pending : s.takeCommand.pending = s.pending.tail := rfl
@[simp] theorem takeCommand_trace : s.takeCommand.trace = s.trace := rfl

@[simp] theorem issue_cfg : (s.issue w).cfg = s.cfg := rfl
@[simp] theorem issue_mem : (s.issue w).mem = s.mem := rfl
@[simp] theorem issue_start : (s.issue w).start = s.start := rfl
@[simp] theorem issue_len : (s.issue w).len = s.len := rfl
@[simp] theorem issue_pending : (s.issue w).pending = w :: s.pending := rfl
@[simp] theorem issue_trace : (s.issue w).trace = s.trace := rfl

@[simp] theorem powerOn_cfg (c : Config) (m : Memory) (ws : List CommandWord) : (State.powerOn c m ws).cfg = c := rfl
@[simp] theorem powerOn_mem (c : Config) (m : Memory) (ws : List CommandWord) : (State.powerOn c m ws).mem = m := rfl
@[simp] theorem powerOn_start (c : Config) (m : Memory) (ws : List CommandWord) : (State.powerOn c m ws).start = 0 := rfl
@[simp] theorem powerOn_len (c : Config) (m : Memory) (ws : List CommandWord) : (State.powerOn c m ws).len = 0 := rfl
@[simp] theorem powerOn_pending (c : Config) (m : Memory) (ws : List CommandWord) : (State.powerOn c m ws).pending = ws := rfl
@[simp] theorem powerOn_trace (c : Config) (m : Memory) (ws : List CommandWord) : (State.powerOn c m ws).trace = [] := rfl

end Sys2Proof.Laws
end

