-- ==== Sys2Proof/Laws/Ops.lean ====
section
/-! SUPPORT. What the shared operations do: addressing, appending, the logical content, the guard, the checksum. -/

namespace Sys2Proof.Laws

open Sys2Proof.Machine

variable {s : State} {b : Byte}

theorem capacity_pos (s : State) : 0 < s.capacity := s.cfg.capacity_pos

theorem capacity_le (s : State) : s.capacity ≤ 4095 := s.cfg.capacity_le

/-- `slot` is total: it always names a cell that exists (R41). -/
theorem slot_lt (s : State) (i : Nat) : s.slot i < s.capacity := Nat.mod_lt _ (capacity_pos s)

/-- `slot` is injective on any `C` consecutive indices (R41). -/
theorem slot_ne (s : State) {i j : Nat} (hij : i < j) (hj : j < i + s.capacity) : s.slot i ≠ s.slot j := by
  intro h
  have hd := (Nat.modEq_iff_dvd' (show s.start + i ≤ s.start + j by omega)).mp h
  have := Nat.le_of_dvd (by omega) hd
  omega

/-- `slot(i + C) = slot(i)` (R41). -/
theorem slot_add_capacity (s : State) (i : Nat) : s.slot (i + s.capacity) = s.slot i := by
  simp [State.slot, ← Nat.add_assoc]

@[simp] theorem capacity_emit (s : State) (e : Event) : (s.emit e).capacity = s.capacity := rfl
@[simp] theorem capacity_respond (s : State) (r : Response) : (s.respond r).capacity = s.capacity := rfl
@[simp] theorem capacity_bufAppend (s : State) (b : Byte) : (s.bufAppend b).capacity = s.capacity := rfl
@[simp] theorem capacity_bufReset (s : State) : s.bufReset.capacity = s.capacity := rfl
@[simp] theorem slot_emit (s : State) (e : Event) (i : Nat) : (s.emit e).slot i = s.slot i := rfl
@[simp] theorem slot_respond (s : State) (r : Response) (i : Nat) : (s.respond r).slot i = s.slot i := rfl
@[simp] theorem slot_bufAppend (s : State) (b : Byte) (i : Nat) : (s.bufAppend b).slot i = s.slot i := rfl
@[simp] theorem bufGet_emit (s : State) (e : Event) (i : Nat) : (s.emit e).bufGet i = s.bufGet i := rfl
@[simp] theorem bufGet_respond (s : State) (r : Response) (i : Nat) : (s.respond r).bufGet i = s.bufGet i := rfl
@[simp] theorem content_emit (s : State) (e : Event) : (s.emit e).content = s.content := rfl
@[simp] theorem content_respond (s : State) (r : Response) : (s.respond r).content = s.content := rfl
@[simp] theorem content_bufReset (s : State) : s.bufReset.content = [] := rfl
@[simp] theorem expected_respond (s : State) (r : Response) : (s.respond r).expected = s.expected := rfl

/-- A read after an append: the new byte in its cell, every other cell as before (R80, R81). -/
theorem bufGet_bufAppend (s : State) (b : Byte) (i : Nat) :
    (s.bufAppend b).bufGet i = if s.slot i = s.slot s.len then b else s.bufGet i := by
  simp [State.bufGet, read_write]

/-- The byte just appended is the last of the content (R122, R194). -/
@[simp] theorem bufGet_bufAppend_last (s : State) (b : Byte) : (s.bufAppend b).bufGet s.len = b := by
  simp [bufGet_bufAppend]

/-- Below the capacity an append keeps every byte of the content (R28). -/
theorem bufGet_bufAppend_below {i : Nat} (hi : i < s.len) (hc : s.len < i + s.capacity) :
    (s.bufAppend b).bufGet i = s.bufGet i := by
  simp [bufGet_bufAppend, slot_ne s hi hc]

@[simp] theorem length_content (s : State) : s.content.length = s.len := by simp [State.content]

theorem getElem_content {i : Nat} (hi : i < s.content.length) : s.content[i] = s.bufGet i := by
  simp [State.content]

theorem byteAt_content {i : Nat} (hi : i < s.len) : byteAt s.content i = s.bufGet i := by
  simp [byteAt, State.content, hi]

/-- Below the capacity an append extends the content by the byte (R28). -/
theorem content_bufAppend (b : Byte) (hc : s.len < s.capacity) : (s.bufAppend b).content = s.content ++ [b] := by
  simp only [State.content, bufAppend_len, List.range_succ, List.map_append, List.map_cons, List.map_nil,
    bufGet_bufAppend_last]
  congr 1
  apply List.map_congr_left
  intro i hi
  exact bufGet_bufAppend_below (List.mem_range.mp hi) (by omega)

/-- At `len = C` the append overwrites logical index 0 (R29). -/
theorem content_bufAppend_full (b : Byte) (hc : s.len = s.capacity) :
    (s.bufAppend b).content = (s.content ++ [b]).set 0 b := by
  have hpos := capacity_pos s
  apply List.ext_getElem
  · simp
  intro i h1 h2
  rw [getElem_content, List.getElem_set]
  simp only [length_content, bufAppend_len] at h1
  split
  · next h =>
    subst h
    have h0 : s.slot 0 = s.slot s.len := by rw [hc]; exact (by simpa using (slot_add_capacity s 0).symm)
    simp [bufGet_bufAppend, h0]
  · next h =>
    rw [List.getElem_append]
    split
    · next h3 =>
      rw [getElem_content]
      exact bufGet_bufAppend_below (by simpa using h3) (by omega)
    · next h3 =>
      simp only [length_content] at h3
      have hi : i = s.len := by omega
      subst hi
      simp

/-- The capacity guard, in the form that counts: it fires exactly at `GUARD_LEN = C + 1` (R102). -/
theorem guardFires_iff (s : State) : s.guardFires = true ↔ s.len = s.capacity + 1 := by
  unfold State.guardFires State.bufCap State.bufLen
  rw [decide_eq_true_iff]
  omega

/-- The validator's loop computes `Chk` of the content (R63, R123). -/
theorem checksum_eq_chk (s : State) : s.checksum = chk s.content := by
  unfold State.checksum chk sum8
  have h : (s.content.drop 1).take (s.content.length - 3) = (List.range (s.len - 3)).map fun k => s.bufGet (k + 1) := by
    apply List.ext_getElem
    · simp; omega
    · intro i h1 h2
      simp [State.content]
  rw [h, List.foldl_map]

end Sys2Proof.Laws
end

