-- ==== Sys2Proof/Laws/Parser.lean ====
section
/-! SUPPORT. What `PROCESS` can do: one case per way it ends, and what acceptance of a byte leaves. -/

namespace Sys2Proof.Laws

open Sys2Proof.Machine

variable {s : State} {b : Byte}

theorem isNoise_iff : s.isNoise b = true ↔ s.len = 0 ∧ b ≠ SYNC := by
  simp [State.isNoise]

theorem isNoise_eq_false_iff : s.isNoise b = false ↔ s.len ≠ 0 ∨ b = SYNC := by
  rw [← Bool.not_eq_true, isNoise_iff]
  tauto

theorem isShort_eq_false_iff : s.isShort = false ↔ 7 ≤ s.len := by
  unfold State.isShort
  rw [decide_eq_false_iff_not]
  exact Nat.not_lt

theorem isIncomplete_eq_false_iff : s.isIncomplete = false ↔ s.len = s.expected := by
  unfold State.isIncomplete
  rw [decide_eq_false_iff_not, not_not]

theorem badTerminator_eq_false_iff : s.badTerminator = false ↔ 3 ≤ s.len ∧ s.bufGet (s.len - 1) = TERM := by
  unfold State.badTerminator
  rw [Bool.or_eq_false_iff, decide_eq_false_iff_not, decide_eq_false_iff_not, not_not, Nat.not_lt]

theorem badChecksum_eq_false_iff : s.badChecksum = false ↔ s.checksum = s.bufGet (s.len - 2) := by
  unfold State.badChecksum
  rw [decide_eq_false_iff_not, not_not]

/-- The tests of steps 4a to 5c on the registers are `ValidFrame` of the content (R66). -/
theorem validFrame_content (s : State) :
    ValidFrame s.content ↔ s.isShort = false ∧ s.isIncomplete = false ∧ s.badTerminator = false ∧ s.badChecksum = false := by
  rw [isShort_eq_false_iff, isIncomplete_eq_false_iff, badTerminator_eq_false_iff, badChecksum_eq_false_iff,
    checksum_eq_chk]
  unfold ValidFrame
  rw [length_content, show MIN_LEN = 7 from rfl]
  constructor
  · rintro ⟨h7, hL, hT, hC⟩
    rw [byteAt_content (by simp [PSIZE_OFF]; omega)] at hL
    rw [byteAt_content (by omega)] at hT hC
    exact ⟨h7, hL, ⟨by omega, hT⟩, hC⟩
  · rintro ⟨h7, hL, ⟨-, hT⟩, hC⟩
    rw [byteAt_content (by simp [PSIZE_OFF]; omega), byteAt_content (by omega), byteAt_content (by omega)]
    exact ⟨h7, hL, hT, hC⟩

/-- Steps 4 and 5: a valid content is dispatched, any other is left as it is (R104 to R126). -/
theorem complete_eq (s : State) : s.complete = if ValidFrame s.content then s.dispatchFrame else s := by
  have h := validFrame_content s
  unfold State.complete State.validate
  by_cases hv : ValidFrame s.content
  · obtain ⟨h1, h2, h3, h4⟩ := h.mp hv
    rw [if_pos hv, h1, h2, h3, h4]
    rfl
  · rw [if_neg hv]
    rw [h] at hv
    cases h1 : s.isShort <;> cases h2 : s.isIncomplete <;> cases h3 : s.badTerminator <;>
      cases h4 : s.badChecksum <;> simp_all

/-- Everything `PROCESS` can do: drop the byte, dispatch, or keep it. -/
theorem processByte_cases (s : State) (b : Byte) :
    (s.isNoise b = true ∧ s.processByte b = s) ∨
    (s.isNoise b = false ∧ ValidFrame (s.accept b).content ∧ s.processByte b = (s.accept b).dispatchFrame) ∨
    (s.isNoise b = false ∧ ¬ ValidFrame (s.accept b).content ∧ s.processByte b = s.accept b) := by
  unfold State.processByte
  rw [complete_eq]
  by_cases hn : s.isNoise b = true
  · exact .inl ⟨hn, if_pos hn⟩
  · have hf : s.isNoise b = false := by simpa using hn
    rw [if_neg hn]
    by_cases hv : ValidFrame (s.accept b).content
    · exact .inr (.inl ⟨hf, hv, if_pos hv⟩)
    · exact .inr (.inr ⟨hf, hv, if_neg hv⟩)

/-- Below the guard a byte is appended. -/
theorem accept_of_ne (b : Byte) (h : s.len ≠ s.capacity + 1) : s.accept b = s.bufAppend b := by
  have : s.guardFires = false := by rw [← Bool.not_eq_true, guardFires_iff]; exact h
  simp [State.accept, State.capacityGuard, this]

/-- At the guard the buffer is reset and the byte becomes logical index 0 (R102, R109). -/
theorem accept_of_full (b : Byte) (h : s.len = s.capacity + 1) : s.accept b = s.bufReset.bufAppend b := by
  have : s.guardFires = true := (guardFires_iff s).mpr h
  simp [State.accept, State.capacityGuard, this]

theorem capacityGuard_cases (s : State) :
    (s.len = s.capacity + 1 ∧ s.capacityGuard = s.bufReset) ∨ (s.len ≠ s.capacity + 1 ∧ s.capacityGuard = s) := by
  unfold State.capacityGuard
  by_cases h : s.len = s.capacity + 1
  · exact .inl ⟨h, by rw [(guardFires_iff s).mpr h]; rfl⟩
  · have : s.guardFires = false := by rw [← Bool.not_eq_true, guardFires_iff]; exact h
    exact .inr ⟨h, by simp [this]⟩

@[simp] theorem capacityGuard_cfg (s : State) : s.capacityGuard.cfg = s.cfg := by
  unfold State.capacityGuard; split <;> rfl
@[simp] theorem capacityGuard_mem (s : State) : s.capacityGuard.mem = s.mem := by
  unfold State.capacityGuard; split <;> rfl
@[simp] theorem capacityGuard_pending (s : State) : s.capacityGuard.pending = s.pending := by
  unfold State.capacityGuard; split <;> rfl
@[simp] theorem capacityGuard_trace (s : State) : s.capacityGuard.trace = s.trace := by
  unfold State.capacityGuard; split <;> rfl
@[simp] theorem accept_cfg (s : State) (b : Byte) : (s.accept b).cfg = s.cfg := by simp [State.accept]
@[simp] theorem accept_pending (s : State) (b : Byte) : (s.accept b).pending = s.pending := by simp [State.accept]
@[simp] theorem accept_trace (s : State) (b : Byte) : (s.accept b).trace = s.trace := by simp [State.accept]
@[simp] theorem capacity_accept (s : State) (b : Byte) : (s.accept b).capacity = s.capacity := by
  unfold State.capacity
  rw [accept_cfg]

/-- Acceptance always leaves at least one byte (R103). -/
theorem accept_len_pos (s : State) (b : Byte) : 0 < (s.accept b).len := by simp [State.accept]

/-- What the guard leaves for the append: never more than `C` bytes when there were at most `C + 1` (R27). -/
theorem capacityGuard_len_le (h : s.len ≤ s.capacity + 1) : s.capacityGuard.len ≤ s.capacity := by
  obtain ⟨-, h'⟩ | ⟨hne, h'⟩ := capacityGuard_cases s
  · rw [h', bufReset_len]
    exact Nat.zero_le _
  · rw [h']
    omega

end Sys2Proof.Laws
end

