-- ==== Sys2Proof/Laws/PerInstr.lean ====
section
/-! SUPPORT. Facts about the command as syntax, one lemma per command. Family `EncodeFields`: the fields of its word (R70, R71). -/

namespace Sys2Proof.Laws.EncodeFields

/-- The `op` of a command (R71). -/
def opOf : Instr → BitVec 4
  | .process _ => 0x0
  | .reset => 0x1
  | .append _ => 0x2
  | .get _ => 0x3
  | .length => 0x4
  | .capacity => 0x5

/-- The `arg` of a command: the operand as it stands, zero above it (R70). -/
def argOf : Instr → Nat
  | .process b => b.toNat
  | .reset => 0
  | .append b => b.toNat
  | .get i => i
  | .length => 0
  | .capacity => 0

/-- The word of a well-formed command has its `op` in `W[15:12]` and its operand, unchanged, in `W[11:0]` (R70, R71). -/
def Statement (i : Instr) : Prop :=
  i.wellFormed = true → opField (encode i) = opOf i ∧ (argField (encode i)).toNat = argOf i

theorem opField_commandWord (op : BitVec 4) (arg : BitVec 12) : opField (commandWord op arg) = op := by
  unfold opField commandWord
  ext i hi
  rw [BitVec.getElem_extractLsb', BitVec.getLsbD_append]
  simp [show ¬ 12 + i < 12 by omega]
  exact BitVec.getLsbD_eq_getElem hi

theorem argField_commandWord (op : BitVec 4) (arg : BitVec 12) : argField (commandWord op arg) = arg := by
  unfold argField commandWord
  ext i hi
  rw [BitVec.getElem_extractLsb', BitVec.getLsbD_append]
  simp [hi]

theorem toNat_byteArg (b : Byte) : (byteArg b).toNat = b.toNat := by
  have h := BitVec.toNat_append (0 : BitVec 4) b
  have hb := b.isLt
  simpa [byteArg] using h

theorem process (b : Byte) : Statement (.process b) := fun _ =>
  ⟨opField_commandWord _ _, by rw [show encode (.process b) = commandWord 0x0 (byteArg b) from rfl,
    argField_commandWord, toNat_byteArg]; rfl⟩

theorem reset : Statement .reset := fun _ => ⟨opField_commandWord _ _, by decide⟩

theorem append (b : Byte) : Statement (.append b) := fun _ =>
  ⟨opField_commandWord _ _, by rw [show encode (.append b) = commandWord 0x2 (byteArg b) from rfl,
    argField_commandWord, toNat_byteArg]; rfl⟩

theorem get (i : Nat) : Statement (.get i) := fun h =>
  ⟨opField_commandWord _ _, by
    have h : i ≤ 4095 := by simpa [Instr.wellFormed] using h
    rw [show encode (.get i) = commandWord 0x3 (BitVec.ofNat 12 i) from rfl, argField_commandWord, BitVec.toNat_ofNat]
    exact Nat.mod_eq_of_lt (by omega)⟩

theorem length : Statement .length := fun _ => ⟨opField_commandWord _ _, by decide⟩

theorem capacity : Statement .capacity := fun _ => ⟨opField_commandWord _ _, by decide⟩

end Sys2Proof.Laws.EncodeFields
end

