-- ==== Sys2Proof/Laws/Step.lean ====
section
/-! SUPPORT. What a command and a step can do, one equation or case per way, and runs taken in pieces. -/

namespace Sys2Proof.Laws

open Sys2Proof.Machine

variable {s t : State}

/-- Two states with the same fields are the same. -/
theorem state_ext (h1 : s.cfg = t.cfg) (h2 : s.mem = t.mem) (h3 : s.start = t.start) (h4 : s.len = t.len)
    (h5 : s.pending = t.pending) (h6 : s.trace = t.trace) : s = t := by
  cases s
  cases t
  simp_all

theorem exec_process (b : Byte) (s : State) : exec (.process b) s = .next ((s.processByte b).respond .ok) := rfl

theorem exec_reset (s : State) : exec .reset s = .next (s.bufReset.respond .ok) := rfl

theorem exec_length (s : State) : exec .length s = .next (s.respond (.data s.len)) := rfl

theorem exec_capacity (s : State) : exec .capacity s = .next (s.respond (.data s.capacity)) := rfl

theorem exec_append_room (b : Byte) (h : s.len ≤ s.capacity) :
    exec (.append b) s = .next ((s.bufAppend b).respond .ok) := by
  have : s.appendOver = false := by
    unfold State.appendOver
    rw [decide_eq_false_iff_not]
    omega
  simp [exec, execAppend, this]

theorem exec_append_over (b : Byte) (h : s.capacity < s.len) : exec (.append b) s = .next (s.raise .appendOverrun) := by
  have : s.appendOver = true := by
    unfold State.appendOver
    rw [decide_eq_true_iff]
    exact h
  simp [exec, execAppend, this]

theorem exec_get_inside {k : Nat} (h : k < s.len) : exec (.get k) s = .next (s.respond (byteData (s.bufGet k))) := by
  have : s.indexOut k = false := by
    unfold State.indexOut
    rw [decide_eq_false_iff_not]
    omega
  simp [exec, execGet, this]

theorem exec_get_outside {k : Nat} (h : s.len ≤ k) : exec (.get k) s = .next (s.raise .indexOutOfRange) := by
  have : s.indexOut k = true := by
    unfold State.indexOut
    rw [decide_eq_true_iff]
    exact h
  simp [exec, execGet, this]

/-- Everything a command can do, on the triple of R20: nothing but its response, a buffer reset, an append with room, or `PROCESS`. -/
theorem exec_cases {i : Instr} (h : exec i s = .next t) :
    (∃ r, t = s.respond r) ∨ (i = .reset ∧ t = s.bufReset.respond .ok) ∨
    (∃ b, i = .append b ∧ s.len ≤ s.capacity ∧ t = (s.bufAppend b).respond .ok) ∨
    (∃ b, i = .process b ∧ t = (s.processByte b).respond .ok) := by
  cases i with
  | process b =>
    rw [exec_process] at h
    injection h with h
    exact .inr (.inr (.inr ⟨b, rfl, h.symm⟩))
  | reset =>
    rw [exec_reset] at h
    injection h with h
    exact .inr (.inl ⟨rfl, h.symm⟩)
  | append b =>
    by_cases hc : s.len ≤ s.capacity
    · rw [exec_append_room b hc] at h
      injection h with h
      exact .inr (.inr (.inl ⟨b, rfl, hc, h.symm⟩))
    · rw [exec_append_over b (by omega)] at h
      injection h with h
      exact .inl ⟨_, h.symm⟩
  | get k =>
    by_cases hc : k < s.len
    · rw [exec_get_inside hc] at h
      injection h with h
      exact .inl ⟨_, h.symm⟩
    · rw [exec_get_outside (by omega)] at h
      injection h with h
      exact .inl ⟨_, h.symm⟩
  | length =>
    rw [exec_length] at h
    injection h with h
    exact .inl ⟨_, h.symm⟩
  | capacity =>
    rw [exec_capacity] at h
    injection h with h
    exact .inl ⟨_, h.symm⟩

/-- Everything a step can do: wait, run a command, or refuse a reserved word. -/
theorem step_cases (h : step s = .next t) :
    (s.pending = [] ∧ t = s) ∨
    (∃ w rest i, s.pending = w :: rest ∧ decode w = .ok i ∧ exec i s.takeCommand = .next t) ∨
    (∃ w rest e, s.pending = w :: rest ∧ decode w = .error e ∧ t = s.illegalWord) := by
  unfold step State.nextWord at h
  cases hp : s.pending with
  | nil =>
    rw [hp] at h
    injection h with h
    exact .inl ⟨rfl, h.symm⟩
  | cons w rest =>
    rw [hp] at h
    simp only [List.head?_cons] at h
    cases hd : decode w with
    | ok i =>
      rw [hd] at h
      exact .inr (.inl ⟨w, rest, i, rfl, hd, h⟩)
    | error e =>
      rw [hd] at h
      injection h with h
      exact .inr (.inr ⟨w, rest, e, rfl, hd, h.symm⟩)

/-- A run in two pieces. -/
theorem runCommands_append {is : List Instr} (js : List Instr) (h : runCommands is s = .next t) :
    runCommands (is ++ js) s = runCommands js t := by
  induction is generalizing s with
  | nil =>
    injection h with h
    rw [h]
    rfl
  | cons i is ih =>
    simp only [List.cons_append, runCommands] at *
    cases he : exec i s with
    | next u =>
      rw [he] at h
      exact ih h
    | fault f => simp [he] at h
    | refused f => simp [he] at h

theorem feed_append (bs cs : List Byte) : feed (bs ++ cs) = feed bs ++ feed cs := List.map_append

@[simp] theorem feed_nil : feed [] = [] := rfl

@[simp] theorem feed_cons (b : Byte) (bs : List Byte) : feed (b :: bs) = .process b :: feed bs := rfl

@[simp] theorem runCommands_nil (s : State) : runCommands [] s = .next s := rfl

end Sys2Proof.Laws
end

