-- ==== Sys2Proof/Tests/Slice0.lean ====
section
/-! SUPPORT. The model's own tests: small steps whose results the spec's vectors give, and, for each statement with hypotheses, a state
and operands that meet them together. -/

namespace Sys2Proof.Tests

open Sys2Proof.Machine

/-- A handler, and configurations with the capacities of the spec's vectors, bound to it. -/
def h5 : Handler := ⟨5⟩
def c1 : Config := ⟨1, h5, by decide, by decide⟩
def c4 : Config := ⟨4, h5, by decide, by decide⟩
def c6 : Config := ⟨6, h5, by decide, by decide⟩
def c7 : Config := ⟨7, h5, by decide, by decide⟩
def c8 : Config := ⟨8, h5, by decide, by decide⟩

/-- The state of a buffer of a configuration that holds some bytes. -/
def held (c : Config) (bs : List Byte) : State := bs.foldl (fun s b => s.bufAppend b) (State.powerOn c [] [])

/-- What a command leaves, if it leaves a next state. -/
def after (i : Instr) (s : State) : Option State := nextState? (exec i s)

/-- The length and the observation after a command. -/
def seen (i : Instr) (s : State) : Option (Nat × List Event) := (after i s).map fun t => (t.len, t.trace)

/-- Six bytes of the minimal frame of S1, and the same with the checksum of S2. -/
def six : List Byte := [0x0C, 0x01, 0x02, 0x03, 0x00, 0x06]
def sixBad : List Byte := [0x0C, 0x01, 0x02, 0x03, 0x00, 0x07]

/-- The minimal frame of S1. -/
def frame7 : List Byte := [0x0C, 0x01, 0x02, 0x03, 0x00, 0x06, 0x0D]

/-- The eight-byte frame of V9, and its first seven bytes. -/
def frame8 : List Byte := [0x0C, 0x01, 0x02, 0x03, 0x01, 0x55, 0x5C, 0x0D]
def seven : List Byte := [0x0C, 0x01, 0x02, 0x03, 0x01, 0x55, 0x5C]

/-- The content of S3 after nine bytes, C = 8. -/
def nine : List Byte := [0x0C, 0x11, 0x22, 0x33, 0xFF, 0x40, 0x41, 0x42, 0x43]

/-! ### Well-formedness, words -/

theorem test_wellFormed_refuses_index_4096 : (Instr.get 4096).wellFormed = false := by decide
theorem test_wellFormed_accepts_index_4095 : (Instr.get 4095).wellFormed = true := by decide

-- R71's patterns, bit 15 first; V25
theorem test_decode_process : decode 0b0000000010100101 = .ok (.process 0xA5) := by decide
theorem test_decode_reset : decode 0b0001000000000000 = .ok .reset := by decide
theorem test_decode_append : decode 0b0010000011111111 = .ok (.append 0xFF) := by decide
theorem test_decode_get : decode 0b0011000100000110 = .ok (.get 262) := by decide
theorem test_decode_length : decode 0b0100000000000000 = .ok .length := by decide
theorem test_decode_capacity : decode 0b0101000000000000 = .ok .capacity := by decide
-- V26
theorem test_decode_reserved_op : decode 0x6000 = .error .op := by decide
theorem test_decode_reserved_highArg : decode 0x0100 = .error .highArg := by decide
theorem test_decode_reserved_arg : decode 0x1001 = .error .arg := by decide
theorem test_decodeTableWord_get : decodeTableWord 16 0x3FFF = some (.get 4095) := by decide
-- V27
theorem test_word_data_262 : (Response.data 262).word = 0x4106 := by decide
theorem test_word_err_2 : (Response.err .indexOutOfRange).word = 0x8002 := by decide
-- R7 at C = 262
theorem test_lenWidth_262 : lenWidth Config.recommended = 9 := by decide
theorem test_startWidth_262 : startWidth Config.recommended = 9 := by decide

/-! ### One step of each command -/

-- S1, step 9
theorem test_process_dispatch : seen (.process 0x0D) (held c8 six) = some (0, [.frame h5 frame7 7, okEvent]) := by decide
-- S3, step 10: the guard, no sync test
theorem test_process_guard : (after (.process 0x44) (held c8 nine)).map (fun t => (t.len, t.content)) = some (1, [0x44]) := by
  decide
-- V4
theorem test_reset_hides : seen .reset (held c4 [0x55, 0x22]) = some (0, [okEvent]) := by decide
-- V3
theorem test_append_at_capacity :
    (after (.append 0x55) (held c4 [0x11, 0x22, 0x33, 0x44])).map State.content = some [0x55, 0x22, 0x33, 0x44, 0x55] := by
  decide
theorem test_append_overrun :
    seen (.append 0x66) (held c4 [0x11, 0x22, 0x33, 0x44, 0x55]) = some (5, [.response (.err .appendOverrun)]) := by decide
-- V1, V2
theorem test_get_inside : seen (.get 2) (held c8 [0x10, 0x20, 0x30]) = some (3, [.response (.data 0x30)]) := by decide
theorem test_get_outside : seen (.get 3) (held c8 [0x10, 0x20, 0x30]) = some (3, [.response (.err .indexOutOfRange)]) := by
  decide
theorem test_length_above_capacity : seen .length (held c8 nine) = some (9, [.response (.data 9)]) := by decide
theorem test_capacity_262 : seen .capacity State.reset = some (0, [.response (.data 262)]) := by decide
-- a step on an issued word, and on a reserved one
theorem test_step_issued : (nextState? (step (State.reset.withFetchWord 16 0x5000))).map State.trace =
    some [.response (.data 262)] := by decide
theorem test_step_reserved : (nextState? (step (State.reset.withFetchWord 16 0x7000))).map State.trace =
    some [.response (.err .illegalCommand)] := by decide
-- V17, V28
theorem test_chk_wraps : chk [0x0C, 0xFF, 0xFF, 0xFF, 0x01, 0xFF, 0xFD, 0x0D] = 0xFD := by decide
theorem test_mkFrame : mkFrame 0x0A 0x0B 0x0C [0x01, 0x02] = [0x0C, 0x0A, 0x0B, 0x0C, 0x02, 0x01, 0x02, 0x26, 0x0D] := by decide
-- R75, R76
theorem test_script_get : assembleLine ['G', 'E', 'T', ' ', '0', 'x', 'F', 'f', ' ', ';', ' ', 'x'] = some [.get 255] := by decide
theorem test_script_refuses_byte_256 :
    assembleLine ['A', 'P', 'P', 'E', 'N', 'D', ' ', '2', '5', '6'] = none := by decide
theorem test_script_feed :
    assembleLine ['F', 'E', 'E', 'D', ' ', '1', '2', ' ', '0', 'x', '1'] = some [.process 12, .process 1] := by decide

/-! ### The hypotheses of the statements are met -/

/-- Commands pending: a `GET 0`, then a reserved word. -/
def waiting : State := State.powerOn c8 [] [0x3000, 0x7000]
def waitingReserved : State := State.powerOn c8 [] [0x7000, 0x3000]

-- DecodeEncodeGivesCommand, EncodeDecodeGivesWord, AssembledCommandsAreWellFormed
theorem witness_roundTrip : (Instr.get 4095).wellFormed = true ∧ decode 0x3FFF = .ok (.get 4095) := by decide
theorem witness_assembled : assemble [['G', 'E', 'T', ' ', '4', '0', '9', '5']] = some [.get 4095] := by decide
-- ReservedWordsRaiseIllegalCommand, ContractFaultChangesNothing
theorem witness_reserved : waitingReserved.pending = 0x7000 :: [0x3000] ∧ (∀ r ∈ opcodeMap, r.selects 0x7000 = false) ∧
    decode 0x7000 = .error .op ∧ decode 0x0100 = .error .highArg ∧ decode 0x5800 = .error .arg := by decide
-- ResponseWordHoldsKindAndValue, ResponseDataFitsThirteenBits
theorem witness_responseFits : (Response.data (2 ^ 14 - 1)).value < 2 ^ 14 := by decide
theorem witness_responseData : (held c8 nine).Inv ∧ after .length (held c8 nine) = some ((held c8 nine).respond (.data 9)) := by decide
-- StepRunsDecodedCommand, OneResponsePerCommandFrameBeforeOk
theorem witness_stepRuns : waiting.pending = 0x3000 :: [0x7000] ∧ decode 0x3000 = .ok (.get 0) := by decide
-- StepWaitsWithNothingPending
theorem witness_nothingPending : State.reset.pending = [] := by decide
-- IssuedTableWordRunsNext
theorem witness_tableWord : decodeTableWord 16 0x00A5 = some (.process 0xA5) := by decide
-- StepKeepsCapacityAndObservation, StepKeepsLegalValues
theorem witness_stepNext : waiting.Inv ∧ nextState? (step waiting) = some (waiting.takeCommand.raise .indexOutOfRange) := by decide
-- LegalValuesAtReset
theorem witness_legalMemory : Memory.wf [(0, 1), (7, 255)] = true ∧ Memory.within c8.capacity [(0, 1), (7, 255)] = true := by decide
-- StartIsZeroInEveryReachableState, LengthStaysWithinGuardLength, AppendAtCapacityAliasesIndexZero (second clause)
theorem witness_reachable : Reachable (State.powerOn c8 [(0, 1)] [0x2011]) := .powerOn c8 [(0, 1)] [0x2011] (by decide) (by decide)
theorem witness_reachable_room : Reachable State.reset ∧ State.reset.len < State.reset.capacity :=
  ⟨.powerOn Config.recommended [] [] (by decide) (by decide), by decide⟩
/-- The state after `C + 1` appends, C = 1, is reachable: a run of two steps. -/
theorem witness_reachable_full : ∃ s, Reachable s ∧ s.capacity < s.len :=
  ⟨_, .step _ _ (.step _ _ (.powerOn c1 [] [0x2011, 0x2022] (by decide) (by decide)) rfl) rfl, by decide⟩
theorem witness_atCapacity : (held c4 [1, 2, 3, 4]).Inv ∧ (held c4 [1, 2, 3, 4]).len = (held c4 [1, 2, 3, 4]).capacity := by decide
theorem witness_lengthGrows : ∃ t, exec (.append 9) (held c4 [1]) = .next t ∧ (held c4 [1]).len < t.len := ⟨_, rfl, by decide⟩
-- RegisterWidthsAreLeast, at the least and the greatest capacity
theorem witness_widths_least : 1 + 1 < 2 ^ 2 ∧ lenWidth c1 = 2 ∧ 1 ≤ 2 ^ 0 ∧ startWidth c1 = 0 := by decide
theorem witness_widths_greatest : lenWidth ⟨4095, h5, by decide, by decide⟩ = 13 ∧ startWidth ⟨4095, h5, by decide, by decide⟩ = 12 := by decide
-- StepKeepsStartZero, StepKeepsFramesValid: a state with a frame in its observation
theorem witness_framesValid : ({ waiting with trace := [.frame h5 frame7 7] } : State).Inv ∧
    ({ waiting with trace := [.frame h5 frame7 7] } : State).FramesValid ∧ waiting.start = 0 ∧
    ∃ t, step { waiting with trace := [.frame h5 frame7 7] } = .next t := by
  refine ⟨by decide, ?_, by decide, _, rfl⟩
  intro h f L hm
  simp only [List.mem_singleton, Event.frame.injEq] at hm
  obtain ⟨rfl, rfl, rfl⟩ := hm
  decide
-- ResetCommandEmptiesBuffer
theorem witness_resetNoChange : State.reset.len = 0 ∧ State.reset.start = 0 ∧ (0x0D : Byte) ≠ 0x0C := by decide
-- AppendStoresOrOverruns, AppendFrame: at `len = C` and at `len = C + 1`
theorem witness_append_room : (held c4 [1, 2, 3, 4]).len ≤ (held c4 [1, 2, 3, 4]).capacity := by decide
theorem witness_append_over : (held c4 [1, 2, 3, 4, 5]).capacity < (held c4 [1, 2, 3, 4, 5]).len := by decide
-- GetReadsInsideAndFaultsOutside: the last index inside, the first outside, and `len = C + 1`
theorem witness_get_bounds : 2 < (held c8 [1, 2, 3]).len ∧ (held c8 [1, 2, 3]).len ≤ 3 := by decide
theorem witness_get_aliased : (held c4 [1, 2, 3, 4, 5]).len = (held c4 [1, 2, 3, 4, 5]).capacity + 1 := by decide
-- NonStoringCommandsFrame, ReadsRepeatAndResetIsIdempotent
theorem witness_nonStoring_next : ∃ t, exec (.get 0) (held c8 six) = .next t := ⟨_, rfl⟩
theorem witness_reset_next : ∃ t, exec .reset (held c8 six) = .next t := ⟨_, rfl⟩
theorem witness_length_next : ∃ t, exec .length (held c8 six) = .next t := ⟨_, rfl⟩
theorem witness_append_next : ∃ t, exec (.append 7) (held c8 six) = .next t := ⟨_, rfl⟩
-- CircularAddressing, with `start = 3` as in V6, at `n = C` and `n = C + 1`
theorem witness_circular : ({ State.powerOn c4 [] [] with start := 3 } : State).len = 0 ∧
    3 < (State.powerOn c4 [] []).capacity ∧ [1, 2, 3, 4].length ≤ c4.capacity ∧ [1, 2, 3, 4, 5].length = c4.capacity + 1 := by decide
-- ProcessDropsNoise, IdleNoise (first clause)
theorem witness_noise : State.reset.len = 0 ∧ (0x0D : Byte) ≠ 0x0C ∧ (0x0C : Byte) ∉ ([0x00, 0x0D, 0xFF, 0x0B] : List Byte) := by decide
theorem witness_sync : (held c8 [0x0C]).len ≠ 0 ∨ (0x99 : Byte) = 0x0C := by decide
-- CapacityGuardRestartsWithoutSync: fires at `C + 1`, not at `C`
theorem witness_guard : (held c8 nine).len = (held c8 nine).capacity + 1 ∧ (held c8 nine).guardFires = true ∧
    (held c8 (nine.take 8)).guardFires = false := by decide
-- ProcessAppendsUntilSevenBytes: the sync byte at an empty buffer, and the sixth byte
theorem witness_short_first : (State.reset.len ≠ 0 ∨ (0x0C : Byte) = 0x0C) ∧ State.reset.len ≠ State.reset.capacity + 1 ∧
    State.reset.len + 1 < 7 := by decide
theorem witness_short_last : (held c8 (six.take 5)).len ≠ 0 ∧ (held c8 (six.take 5)).len + 1 < 7 ∧ (held c8 (six.take 5)).len + 1 = 6 := by
  decide
-- ProcessKeepsIncompleteCandidate: below and above the declared length
theorem witness_acc_below : let s := held c8 (frame8.take 6)
    s.len ≠ s.capacity + 1 ∧ 7 ≤ s.len + 1 ∧ s.len + 1 ≠ (byteAt (s.bufAppend 0x5C).content 4).toNat + 7 := by decide
theorem witness_acc_above : let s := held c8 (sixBad ++ [0x0D])
    s.len ≠ s.capacity + 1 ∧ 7 ≤ s.len + 1 ∧ s.len + 1 ≠ (byteAt (s.bufAppend 0x0C).content 4).toNat + 7 := by decide
-- ProcessRejectLeavesBuffer: a wrong terminator (V13), a wrong checksum (S2)
theorem witness_reject_terminator : let s := held c8 six
    s.len ≠ s.capacity + 1 ∧ 7 ≤ s.len + 1 ∧ s.len + 1 = (byteAt (s.bufAppend 0x0A).content 4).toNat + 7 ∧ (0x0A : Byte) ≠ 0x0D := by
  decide
theorem witness_reject_checksum : let s := held c8 sixBad
    let f := (s.bufAppend 0x0D).content
    s.len ≠ s.capacity + 1 ∧ 7 ≤ s.len + 1 ∧ s.len + 1 = (byteAt f 4).toNat + 7 ∧
      sum8 ((f.drop 1).take (s.len + 1 - 3)) ≠ byteAt f (s.len - 1) := by decide
-- ProcessDispatchesValidFrame, FrameEmittedExactlyForValidFrame
theorem witness_dispatch : let s := held c8 six
    let f := (s.bufAppend 0x0D).content
    s.len ≠ s.capacity + 1 ∧ 7 ≤ s.len + 1 ∧ s.len + 1 = (byteAt f 4).toNat + 7 ∧
      sum8 ((f.drop 1).take (s.len + 1 - 3)) = byteAt f (s.len - 1) := by decide
theorem witness_valid : (held c8 six).len ≠ 0 ∧ ValidFrame ((held c8 six).accept 0x0D).content := by decide
theorem witness_not_valid : (held c8 sixBad).len ≠ 0 ∧ ¬ ValidFrame ((held c8 sixBad).accept 0x0D).content := by decide
-- ProcessOutcomeTable: each outcome
theorem witness_outcome_noise : State.reset.processOutcome 0x0B = .noise := by decide
theorem witness_outcome_short : (held c8 nine).processOutcome 0x44 = .short ∧ (held c8 [0x0C]).processOutcome 1 = .short := by decide
theorem witness_outcome_acc : (held c8 (frame8.take 6)).processOutcome 0x5C = .acc := by decide
theorem witness_outcome_badTerm : (held c8 six).processOutcome 0x0A = .badTerm := by decide
theorem witness_outcome_badSum : (held c8 sixBad).processOutcome 0x0D = .badSum := by decide
theorem witness_outcome_dispatch : (held c8 six).processOutcome 0x0D = .dispatch := by decide
-- SmallFactsAboutOneProcess, ProcessFrame, AtMostOneDispatchPerProcess
theorem witness_process_next : Reachable State.reset ∧ ∃ t, exec (.process 0x0C) State.reset = .next t :=
  ⟨.powerOn Config.recommended [] [] (by decide) (by decide), _, rfl⟩
-- PhaseTransitions: each phase, and the boundaries where its clauses meet
theorem witness_phase_full : (held c8 nine).Inv ∧ (held c8 nine).phase = .full := by decide
theorem witness_phase_idle : State.reset.Inv ∧ State.reset.phase = .idle := by decide
theorem witness_phase_header : (held c8 (six.take 5)).phase = .header ∧ (held c8 (six.take 5)).len ≤ 5 := by decide
theorem witness_phase_header_last : (held c6 six).phase = .header ∧ (held c6 six).len = 6 ∧ (held c6 six).bufGet 4 = 0 := by decide
theorem witness_phase_header_more : (held c8 (frame8.take 6)).phase = .header ∧ (held c8 (frame8.take 6)).len = 6 ∧
    (held c8 (frame8.take 6)).bufGet 4 ≠ 0 := by decide
theorem witness_phase_accum : (held c8 (nine.take 7)).Inv ∧ (held c8 (nine.take 7)).phase = .accum ∧
    (held c8 (nine.take 7)).len + 1 < (held c8 (nine.take 7)).expected := by decide
theorem witness_phase_accum_last : (held c8 seven).phase = .accum ∧ (held c8 seven).len + 1 = (held c8 seven).expected := by decide
theorem witness_phase_stale : (held c8 (sixBad ++ [0x0D])).Inv ∧ (held c8 (sixBad ++ [0x0D])).phase = .stale := by decide
-- PayloadSizeFixedUntilReset: at five bytes, and at `len = C`
theorem witness_payloadSize : (held c8 (six.take 5)).Inv ∧ 5 ≤ (held c8 (six.take 5)).capacity ∧ 5 ≤ (held c8 (six.take 5)).len ∧
    (held c8 (six.take 5)).len ≤ (held c8 (six.take 5)).capacity ∧
    (after (.process 6) (held c8 (six.take 5))).map State.len = some ((held c8 (six.take 5)).len + 1) := by decide
theorem witness_payloadSize_full : (held c8 (nine.take 8)).len = (held c8 (nine.take 8)).capacity ∧
    (after (.append 6) (held c8 (nine.take 8))).map State.len = some ((held c8 (nine.take 8)).len + 1) := by decide
-- WellFormedFramesAreMkFrames
theorem witness_wellFormedFrame : WellFormedFrame frame7 ∧ ([0x55] : List Byte).length ≤ 255 := by decide
-- EveryFrameOfEveryRunIsValid: a reachable state with a frame in its observation, in eight steps
theorem witness_frame_in_run : ∃ s, Reachable s ∧ .frame h5 [0x0C, 0, 0, 0, 0, 0, 0x0D] 7 ∈ s.trace :=
  ⟨_, .step _ _ (.step _ _ (.step _ _ (.step _ _ (.step _ _ (.step _ _ (.step _ _
    (.powerOn c8 [] [0x000C, 0x2000, 0x2000, 0x2000, 0x2000, 0x2000, 0x000D] (by decide) (by decide)) rfl) rfl) rfl) rfl) rfl) rfl) rfl,
    by decide⟩
-- SyncTestedOnlyOnEmptyEntry
theorem witness_sync_entry : State.reset.len = 0 ∧ (after (.process 0x0C) State.reset).map State.len = some 1 ∧
    (held c8 nine).len = (held c8 nine).capacity + 1 := by decide
-- CleanFrameAcceptance: the frame of seven bytes at C = 7, C = 6 and (nine bytes) C = 7; BackToBackFrames, ResetRecoversSynchronisation
theorem witness_clean_fits : (State.powerOn c7 [] []).len = 0 ∧ WellFormedFrame frame7 ∧ frame7.length ≤ c7.capacity := by decide
theorem witness_clean_aliased : WellFormedFrame frame7 ∧ frame7.length = c6.capacity + 1 := by decide
theorem witness_clean_lost : WellFormedFrame (mkFrame 1 2 3 [0x55, 0x66]) ∧ c7.capacity + 2 ≤ (mkFrame 1 2 3 [0x55, 0x66]).length := by
  decide
theorem witness_stream : (0x0C : Byte) ∉ ([0x55, 0x0D] : List Byte) ∧ WellFormedFrame frame7 ∧ frame7.length ≤ c8.capacity := by decide
theorem witness_streamItems : ∀ p ∈ [(([0x55] : List Byte), frame7), ([], frame8)], 0x0C ∉ p.1 ∧ WellFormedFrame p.2 ∧
    p.2.length ≤ (State.powerOn c8 [] []).capacity := by decide
-- SmallCapacityNeverDispatches
theorem witness_smallCapacity : (State.powerOn c4 [] []).Inv ∧ (State.powerOn c4 [] []).capacity ≤ 5 := by decide
-- RejectedCandidateAbsorbsUntilOverrun: a reject at `L = 7` with C = 8, and at `L = C + 1` with C = 6
theorem witness_reject : (held c8 sixBad).Inv ∧ (held c8 sixBad).processOutcome 0x0D = .badSum ∧
    ([0x0C, 0x01] : List Byte).length = 8 + 1 - 7 ∧ (after (.process 0x0D) (held c8 sixBad)).map State.len = some 7 := by decide
theorem witness_reject_at_guard : (held c6 six).Inv ∧ (held c6 six).processOutcome 0x0A = .badTerm ∧
    (after (.process 0x0A) (held c6 six)).map State.len = some (c6.capacity + 1) := by decide
-- StepReadsOnlyLogicalContent, PowerOnStorageIsUnobservable: two storages
theorem witness_sameView : (State.powerOn c8 [(3, 9)] [0x000C]).SameView (State.powerOn c8 [(5, 1)] [0x000C]) ∧
    (nextState? (step (State.powerOn c8 [(3, 9)] [0x000C]))).isSome = true := by decide
theorem witness_run : ∃ t, core.run 1 (State.powerOn c8 [(3, 9)] [0x000C]) = .next t := ⟨_, rfl⟩

end Sys2Proof.Tests
end

namespace Sys2Proof.Proofs

open Sys2Proof.Machine Sys2Proof.Laws

/-! ### Invariants of a run

A step is built from a few operations, and an append never happens at `len = C + 1`: `PROCESS` has the capacity guard before it and
`APPEND` faults there. A predicate the operations keep under that condition therefore holds along every run. -/

/-- `P` is kept by every operation a step is built from, each under what the step knows when it applies it. -/
structure KeptByOperations (P : State → Prop) : Prop where
  takeCommand : ∀ {s : State}, P s → P s.takeCommand
  respond : ∀ {s : State} (r : Response), P s → P (s.respond r)
  bufReset : ∀ {s : State}, P s → P s.bufReset
  bufAppend : ∀ {s : State} (b : Byte), P s → s.len ≠ s.capacity + 1 → P (s.bufAppend b)
  dispatchFrame : ∀ {s : State}, P s → ValidFrame s.content → P s.dispatchFrame

namespace KeptByOperations

variable {P : State → Prop} {s t : State}

theorem of_accept (hP : KeptByOperations P) (b : Byte) (hs : P s) : P (s.accept b) := by
  by_cases hfull : s.len = s.capacity + 1
  · rw [accept_of_full b hfull]
    exact hP.bufAppend b (hP.bufReset hs) (Nat.succ_ne_zero _).symm
  · rw [accept_of_ne b hfull]
    exact hP.bufAppend b hs hfull

theorem of_processByte (hP : KeptByOperations P) (b : Byte) (hs : P s) : P (s.processByte b) := by
  obtain ⟨-, hnoise⟩ | ⟨-, hvalid, hdispatch⟩ | ⟨-, -, hkeep⟩ := processByte_cases s b
  · rwa [hnoise]
  · rw [hdispatch]
    exact hP.dispatchFrame (hP.of_accept b hs) hvalid
  · rw [hkeep]
    exact hP.of_accept b hs

theorem of_exec {i : Instr} (hP : KeptByOperations P) (hs : P s) (h : exec i s = .next t) : P t := by
  obtain ⟨r, rfl⟩ | ⟨-, rfl⟩ | ⟨b, -, hroom, rfl⟩ | ⟨b, -, rfl⟩ := exec_cases h
  · exact hP.respond r hs
  · exact hP.respond _ (hP.bufReset hs)
  · exact hP.respond _ (hP.bufAppend b hs (Nat.lt_succ_of_le hroom).ne)
  · exact hP.respond _ (hP.of_processByte b hs)

theorem of_step (hP : KeptByOperations P) (hs : P s) (h : step s = .next t) : P t := by
  obtain ⟨-, rfl⟩ | ⟨_, _, _, -, -, hexec⟩ | ⟨_, _, _, -, -, rfl⟩ := step_cases h
  · exact hs
  · exact hP.of_exec (hP.takeCommand hs) hexec
  · exact hP.respond _ (hP.takeCommand hs)

theorem of_reachable (hP : KeptByOperations P)
    (hreset : ∀ (cfg : Config) (mem : Memory) (ws : List CommandWord),
      mem.wf = true → mem.within cfg.capacity = true → P (State.powerOn cfg mem ws))
    (h : Reachable s) : P s := by
  induction h with
  | powerOn cfg mem ws hwf hwithin => exact hreset cfg mem ws hwf hwithin
  | step _ _ _ hstep ih => exact hP.of_step ih hstep

end KeptByOperations

/-- Only a buffer reset writes `start`, and it writes 0 (R22, R26). -/
theorem keptByOperations_start_eq_zero : KeptByOperations fun s => s.start = 0 where
  takeCommand hs := hs
  respond _ hs := hs
  bufReset _ := rfl
  bufAppend _ hs _ := hs
  dispatchFrame _ _ := rfl

theorem inv_bufReset {s : State} (hs : s.Inv) : s.bufReset.Inv := by
  obtain ⟨hwf, hwithin, -, -⟩ := hs
  exact ⟨hwf, hwithin, capacity_pos s, Nat.zero_le _⟩

/-- An append below the guard length keeps the legal values (R25, R27). -/
theorem inv_bufAppend {s : State} (b : Byte) (hs : s.Inv) (hguard : s.len ≠ s.capacity + 1) :
    (s.bufAppend b).Inv := by
  obtain ⟨hwf, hwithin, hstart, hlen⟩ := hs
  exact ⟨wf_write _ b hwf, within_write b (slot_lt s s.len) hwithin, hstart,
    Nat.lt_of_le_of_ne hlen hguard⟩

theorem keptByOperations_inv : KeptByOperations State.Inv where
  takeCommand hs := hs
  respond _ hs := hs
  bufReset := inv_bufReset
  bufAppend := inv_bufAppend
  dispatchFrame hs _ := inv_bufReset hs

theorem inv_powerOn {cfg : Config} {mem : Memory} (ws : List CommandWord) (hwf : mem.wf = true)
    (hwithin : mem.within cfg.capacity = true) : (State.powerOn cfg mem ws).Inv :=
  ⟨hwf, hwithin, cfg.capacity_pos, Nat.zero_le _⟩

theorem reachable_start_eq_zero {s : State} (h : Reachable s) : s.start = 0 :=
  keptByOperations_start_eq_zero.of_reachable (fun cfg mem ws _ _ => powerOn_start cfg mem ws) h

theorem reachable_inv {s : State} (h : Reachable s) : s.Inv :=
  keptByOperations_inv.of_reachable (fun _ _ ws => inv_powerOn ws) h

theorem slot_of_start_eq_zero {s : State} (h : s.start = 0) (i : Nat) : s.slot i = i % s.capacity := by
  rw [State.slot, h, Nat.zero_add]

/-- Settles O18: `start = 0` is kept by every operation, and then `slot` adds nothing to the index. -/
theorem startIsZeroInEveryReachableState : Obligations.StartIsZeroInEveryReachableState := by
  intro s hs
  have hstart := reachable_start_eq_zero hs
  exact ⟨hstart, slot_of_start_eq_zero hstart⟩

/-! ### When `len` grows (R27) -/

/-- A `PROCESS` after which `len` is greater did one append, and the guard did not fire. -/
theorem processByte_of_len_lt {s : State} {b : Byte} (h : s.len < (s.processByte b).len) :
    s.processByte b = s.bufAppend b := by
  obtain ⟨-, hnoise⟩ | ⟨-, -, hdispatch⟩ | ⟨-, -, hkeep⟩ := processByte_cases s b
  · rw [hnoise] at h
    exact absurd h (lt_irrefl _)
  · rw [hdispatch, dispatchFrame_len] at h
    exact absurd h (Nat.not_lt_zero _)
  · rw [hkeep] at h ⊢
    apply accept_of_ne
    intro hfull
    have hpos := capacity_pos s
    rw [accept_of_full b hfull, bufAppend_len, bufReset_len] at h
    omega

theorem exec_of_len_lt {i : Instr} {s t : State} (h : exec i s = .next t) (hlen : s.len < t.len) :
    ∃ b, (i = .append b ∨ i = .process b) ∧ t = (s.bufAppend b).respond .ok := by
  obtain ⟨r, rfl⟩ | ⟨-, rfl⟩ | ⟨b, hi, -, rfl⟩ | ⟨b, hi, rfl⟩ := exec_cases h
  · exact absurd hlen (lt_irrefl _)
  · exact absurd hlen (Nat.not_lt_zero _)
  · exact ⟨b, .inl hi, rfl⟩
  · exact ⟨b, .inr hi, by rw [processByte_of_len_lt hlen]⟩

/-- Settles O19: the range of `len` is part of the legal values, and a command that makes `len` greater is one append. -/
theorem lengthStaysWithinGuardLength : Obligations.LengthStaysWithinGuardLength := by
  refine ⟨fun s hs => ?_, fun s b hlen => ?_, fun i s t h hlen => ?_⟩
  · obtain ⟨-, -, -, hbound⟩ := reachable_inv hs
    exact ⟨hbound, capacityGuard_len_le hbound, fun b hover => exec_append_over b hover⟩
  · have hne : s.len ≠ s.capacity + 1 := by omega
    refine ⟨?_, ?_, _, exec_append_room b hlen.le, ?_⟩
    · rwa [← Bool.not_eq_true, guardFires_iff]
    · rw [accept_of_ne b hne, bufAppend_len, hlen]
    · rw [respond_len, bufAppend_len, hlen]
  · obtain ⟨b, hi, rfl⟩ := exec_of_len_lt h hlen
    exact ⟨b, hi, rfl, rfl⟩

/-! ### The append at `len = C` (R29) -/

theorem slot_capacity (s : State) : s.slot s.capacity = s.slot 0 := by
  simpa using slot_add_capacity s 0

theorem slot_zero_of_start_lt {s : State} (h : s.start < s.capacity) : s.slot 0 = s.start :=
  Nat.mod_eq_of_lt h

/-- Logical index 0 shares its cell with index `C`, so the append at `len = C` overwrites it. -/
theorem bufGet_zero_bufAppend_full {s : State} (b : Byte) (h : s.len = s.capacity) :
    (s.bufAppend b).bufGet 0 = b := by
  rw [bufGet_bufAppend, h, slot_capacity, if_pos rfl]

/-- Settles O29: `slot(C) = slot(0)`, while the indices between have other slots; in a reachable state `slot(len) = len mod C`. -/
theorem appendAtCapacityAliasesIndexZero : Obligations.AppendAtCapacityAliasesIndexZero := by
  refine ⟨fun s b hs hlen => ?_, fun s hs hlen => ?_⟩
  · obtain ⟨-, -, hstart, -⟩ := hs
    have hpos := capacity_pos s
    have hbyte : ∀ k, k ≤ s.capacity → byteAt (s.bufAppend b).content k = (s.bufAppend b).bufGet k :=
      fun k hk => byteAt_content (by rw [bufAppend_len]; omega)
    refine ⟨_, exec_append_room b hlen.le, ?_, ?_, slot_capacity _, ?_, ?_, fun k hk1 hk => ?_⟩
    · rw [respond_len, bufAppend_len, hlen]
    · rw [hlen, slot_capacity, slot_zero_of_start_lt hstart]
    · rw [content_respond, hbyte 0 hpos.le, bufGet_zero_bufAppend_full b hlen]
    · rw [content_respond, hbyte _ le_rfl, ← hlen, bufGet_bufAppend_last]
    · rw [content_respond, hbyte k (by omega), byteAt_content (by omega),
        bufGet_bufAppend_below (by omega) (by omega)]
  · rw [slot_of_start_eq_zero (reachable_start_eq_zero hs), Nat.mod_eq_of_lt hlen]

/-! ### Reset values (R35) -/

/-- Settles O15: hardware reset and `RESET` write these fields, and `RESET` does not write `mem`. -/
theorem resetValues : Obligations.ResetValues := by
  refine ⟨fun cfg mem ws => ?_, powerOn_len _ _ _, powerOn_start _ _ _, fun s => ?_⟩
  · exact ⟨powerOn_len cfg mem ws, powerOn_start cfg mem ws, powerOn_mem cfg mem ws,
      powerOn_cfg cfg mem ws, powerOn_trace cfg mem ws⟩
  · exact ⟨_, exec_reset s, rfl, rfl, rfl⟩

end Sys2Proof.Proofs

namespace Sys2Proof.Proofs

open Sys2Proof.Machine Sys2Proof.Laws

/-! ### The command word by its fields (R70) -/

/-- A bit vector is its high and its low part. -/
theorem eq_iff_extractLsb' {m n : Nat} {x y : BitVec (m + n)} :
    x = y ↔ x.extractLsb' n m = y.extractLsb' n m ∧ x.extractLsb' 0 n = y.extractLsb' 0 n := by
  refine ⟨fun h => h ▸ ⟨rfl, rfl⟩, fun ⟨hhigh, hlow⟩ => ?_⟩
  rw [← BitVec.extractLsb'_append_extractLsb' (x := x), hhigh, hlow,
    BitVec.extractLsb'_append_extractLsb']

/-- Selecting a row is two tests, one on each field of the word. -/
theorem and_eq_iff_fields {w mask bits : CommandWord} :
    w &&& mask = bits ↔
      opField w &&& opField mask = opField bits ∧ argField w &&& argField mask = argField bits := by
  unfold opField argField
  rw [← BitVec.extractLsb'_and, ← BitVec.extractLsb'_and]
  exact eq_iff_extractLsb' (m := 4) (n := 12)

theorem extractLsb'_high_argField (w : CommandWord) :
    (argField w).extractLsb' 8 4 = w.extractLsb' 8 4 := by
  rw [argField, BitVec.extractLsb'_extractLsb'_of_le (by decide)]

theorem extractLsb'_low_argField (w : CommandWord) :
    (argField w).extractLsb' 0 8 = w.extractLsb' 0 8 := by
  rw [argField, BitVec.extractLsb'_extractLsb'_of_le (by decide)]

theorem byteOperand_argField (w : CommandWord) :
    byteOperand (argField w) =
      if w.extractLsb' 8 4 = 0 then .ok (w.extractLsb' 0 8) else .error .highArg := by
  rw [byteOperand, extractLsb'_high_argField, extractLsb'_low_argField]

/-- The `arg` holds a byte and nothing above it. -/
theorem toNat_argField_eq_byte_iff {w : CommandWord} {b : Byte} :
    (argField w).toNat = b.toNat ↔ w.extractLsb' 8 4 = 0 ∧ b = w.extractLsb' 0 8 := by
  rw [← EncodeFields.toNat_byteArg, ← BitVec.toNat_eq, eq_iff_extractLsb' (m := 4) (n := 8),
    extractLsb'_high_argField, extractLsb'_low_argField, byteArg, BitVec.extractLsb'_append_eq_left,
    BitVec.extractLsb'_append_eq_right, eq_comm (b := b)]

/-! ### The rows of the opcode map by the fields (R71)

Every mask covers the whole `op`; they differ in how much of `arg` they cover. -/

section
variable {w bits : CommandWord} (hbits : argField bits = 0)
include hbits

theorem and_byteMask_eq_iff :
    w &&& 0xFF00 = bits ↔ opField w = opField bits ∧ w.extractLsb' 8 4 = 0 := by
  have hhigh : argField w &&& 0xF00 = 0 ↔ w.extractLsb' 8 4 = 0 := by
    rw [eq_iff_extractLsb' (m := 4) (n := 8), BitVec.extractLsb'_and, BitVec.extractLsb'_and,
      extractLsb'_high_argField, show BitVec.extractLsb' 8 4 (0xF00 : BitVec 12) = BitVec.allOnes 4 from rfl,
      BitVec.and_allOnes]
    exact and_iff_left BitVec.and_zero
  rw [and_eq_iff_fields, hbits, show opField 0xFF00 = BitVec.allOnes 4 from rfl,
    show argField 0xFF00 = 0xF00 from rfl, BitVec.and_allOnes, hhigh]

theorem and_fullMask_eq_iff : w &&& 0xFFFF = bits ↔ opField w = opField bits ∧ argField w = 0 := by
  rw [and_eq_iff_fields, hbits, show opField 0xFFFF = BitVec.allOnes 4 from rfl,
    show argField 0xFFFF = BitVec.allOnes 12 from rfl, BitVec.and_allOnes, BitVec.and_allOnes]

theorem and_opMask_eq_iff : w &&& 0xF000 = bits ↔ opField w = opField bits := by
  rw [and_eq_iff_fields, hbits, show opField 0xF000 = BitVec.allOnes 4 from rfl, BitVec.and_allOnes]
  exact and_iff_left BitVec.and_zero

end

/-! ### What the decoder answers, by the form of operand the `op` asks for (R70 to R72) -/

/-- The `op`s of the commands that carry a byte. -/
inductive OpTakesByte : BitVec 4 → (Byte → Instr) → Prop where
  | process : OpTakesByte 0 .process
  | append : OpTakesByte 2 .append

/-- The `op`s of the commands without operand. -/
inductive OpTakesNothing : BitVec 4 → Instr → Prop where
  | reset : OpTakesNothing 1 .reset
  | length : OpTakesNothing 4 .length
  | capacity : OpTakesNothing 5 .capacity

section
variable {op : BitVec 4} {f : Byte → Instr} {i : Instr}

theorem OpTakesByte.fields (h : OpTakesByte op f) (b : Byte) :
    op = EncodeFields.opOf (f b) ∧ b.toNat = EncodeFields.argOf (f b) := by
  cases h <;> exact ⟨rfl, rfl⟩

theorem OpTakesNothing.fields (h : OpTakesNothing op i) :
    op = EncodeFields.opOf i ∧ 0 = EncodeFields.argOf i := by
  cases h <;> exact ⟨rfl, rfl⟩

theorem exists_opTakesByte_iff : (∃ f, OpTakesByte op f) ↔ op = 0 ∨ op = 2 := by
  constructor
  · rintro ⟨_, _ | _⟩ <;> decide
  · rintro (rfl | rfl)
    · exact ⟨_, .process⟩
    · exact ⟨_, .append⟩

theorem exists_opTakesNothing_iff : (∃ i, OpTakesNothing op i) ↔ op = 1 ∨ op = 4 ∨ op = 5 := by
  constructor
  · rintro ⟨_, _ | _ | _⟩ <;> decide
  · rintro (rfl | rfl | rfl)
    · exact ⟨_, .reset⟩
    · exact ⟨_, .length⟩
    · exact ⟨_, .capacity⟩

theorem op_cases (op : BitVec 4) :
    (∃ f, OpTakesByte op f) ∨ (∃ i, OpTakesNothing op i) ∨ op = 3 ∨ 6 ≤ op.toNat := by
  rw [exists_opTakesByte_iff, exists_opTakesNothing_iff]
  revert op
  decide

end

section
variable {w : CommandWord} {f : Byte → Instr} {i : Instr}

theorem decode_of_opTakesByte (h : OpTakesByte (opField w) f) :
    decode w = if w.extractLsb' 8 4 = 0 then .ok (f (w.extractLsb' 0 8)) else .error .highArg := by
  have hmap : decode w = (byteOperand (argField w)).map f := by
    unfold decode
    generalize opField w = op at h ⊢
    cases h <;> rfl
  rw [hmap, byteOperand_argField]
  split <;> rfl

theorem decode_of_opTakesNothing (h : OpTakesNothing (opField w) i) :
    decode w = if argField w = 0 then .ok i else .error .arg := by
  unfold decode
  generalize opField w = op at h ⊢
  cases h <;> rfl

theorem decode_of_opField_eq_three (h : opField w = 3) : decode w = .ok (.get (argField w).toNat) := by
  rw [decode, h]
  rfl

theorem decode_of_six_le_opField (h : 6 ≤ (opField w).toNat) : decode w = .error .op := by
  unfold decode
  split
  case h_7 => rfl
  all_goals omega

theorem decode_eq_ok_of_byte {b : Byte} (h : OpTakesByte (opField w) f)
    (hb : (argField w).toNat = b.toNat) : decode w = .ok (f b) := by
  obtain ⟨hhigh, rfl⟩ := toNat_argField_eq_byte_iff.mp hb
  rw [decode_of_opTakesByte h, if_pos hhigh]

theorem decode_eq_ok_of_nothing (h : OpTakesNothing (opField w) i)
    (harg : (argField w).toNat = 0) : decode w = .ok i := by
  rw [decode_of_opTakesNothing h, if_pos (BitVec.eq_of_toNat_eq harg)]

/-- A word is decoded to a command exactly when its fields are that command's. -/
theorem decode_eq_ok_iff :
    decode w = .ok i ↔
      opField w = EncodeFields.opOf i ∧ (argField w).toNat = EncodeFields.argOf i := by
  constructor
  · intro hd
    obtain ⟨f, hop⟩ | ⟨j, hop⟩ | hop | hop := op_cases (opField w)
    · rw [decode_of_opTakesByte hop] at hd
      split at hd
      case isTrue hhigh =>
        obtain ⟨hop, hbyte⟩ := hop.fields (w.extractLsb' 0 8)
        cases hd
        exact ⟨hop, (toNat_argField_eq_byte_iff.mpr ⟨hhigh, rfl⟩).trans hbyte⟩
      case isFalse => cases hd
    · rw [decode_of_opTakesNothing hop] at hd
      split at hd
      case isTrue harg =>
        cases hd
        rw [harg]
        exact hop.fields
      case isFalse => cases hd
    · rw [decode_of_opField_eq_three hop] at hd
      cases hd
      exact ⟨hop, rfl⟩
    · rw [decode_of_six_le_opField hop] at hd
      cases hd
  · rintro ⟨hop, harg⟩
    cases i with
    | process b => exact decode_eq_ok_of_byte (hop ▸ .process) harg
    | reset => exact decode_eq_ok_of_nothing (hop ▸ .reset) harg
    | append b => exact decode_eq_ok_of_byte (hop ▸ .append) harg
    | get k => rw [decode_of_opField_eq_three hop, show (argField w).toNat = k from harg]
    | length => exact decode_eq_ok_of_nothing (hop ▸ .length) harg
    | capacity => exact decode_eq_ok_of_nothing (hop ▸ .capacity) harg

/-- The words of each class of R72. -/
def InReservedClass (w : CommandWord) : Reserved → Prop
  | .op => 6 ≤ (opField w).toNat
  | .highArg => (opField w = 0 ∨ opField w = 2) ∧ w.extractLsb' 8 4 ≠ 0
  | .arg => (opField w = 1 ∨ opField w = 4 ∨ opField w = 5) ∧ argField w ≠ 0

theorem decode_eq_error_iff {e : Reserved} : decode w = .error e ↔ InReservedClass w e := by
  constructor
  · intro hd
    obtain ⟨f, hop⟩ | ⟨j, hop⟩ | hop | hop := op_cases (opField w)
    · rw [decode_of_opTakesByte hop] at hd
      split at hd
      case isTrue => cases hd
      case isFalse hhigh =>
        cases hd
        exact ⟨exists_opTakesByte_iff.mp ⟨f, hop⟩, hhigh⟩
    · rw [decode_of_opTakesNothing hop] at hd
      split at hd
      case isTrue => cases hd
      case isFalse harg =>
        cases hd
        exact ⟨exists_opTakesNothing_iff.mp ⟨j, hop⟩, harg⟩
    · rw [decode_of_opField_eq_three hop] at hd
      cases hd
    · rw [decode_of_six_le_opField hop] at hd
      cases hd
      exact hop
  · intro he
    cases e with
    | op => exact decode_of_six_le_opField he
    | highArg =>
      obtain ⟨hop, hhigh⟩ := he
      obtain ⟨f, hf⟩ := exists_opTakesByte_iff.mpr hop
      rw [decode_of_opTakesByte hf, if_neg hhigh]
    | arg =>
      obtain ⟨hop, harg⟩ := he
      obtain ⟨j, hj⟩ := exists_opTakesNothing_iff.mpr hop
      rw [decode_of_opTakesNothing hj, if_neg harg]

end

/-! ### The decoder and the opcode map (R71) -/

section
variable {w : CommandWord}

theorem decode_eq_process_iff {b : Byte} :
    decode w = .ok (.process b) ↔ w &&& 0xFF00 = 0x0000 ∧ b = w.extractLsb' 0 8 := by
  rw [decode_eq_ok_iff, and_byteMask_eq_iff (by decide), and_assoc]
  exact and_congr_right' toNat_argField_eq_byte_iff

theorem decode_eq_append_iff {b : Byte} :
    decode w = .ok (.append b) ↔ w &&& 0xFF00 = 0x2000 ∧ b = w.extractLsb' 0 8 := by
  rw [decode_eq_ok_iff, and_byteMask_eq_iff (by decide), and_assoc]
  exact and_congr_right' toNat_argField_eq_byte_iff

theorem decode_eq_get_iff {k : Nat} :
    decode w = .ok (.get k) ↔ w &&& 0xF000 = 0x3000 ∧ k = (w.extractLsb' 0 12).toNat := by
  rw [decode_eq_ok_iff, and_opMask_eq_iff (by decide), eq_comm (a := k)]
  exact Iff.rfl

/-- A command without operand is decoded from the one word `bits` of its row. -/
theorem decode_eq_ok_iff_fullMask {i : Instr} {bits : CommandWord} (hop : EncodeFields.opOf i = opField bits)
    (hbits : argField bits = 0) (harg : EncodeFields.argOf i = 0) :
    decode w = .ok i ↔ w &&& 0xFFFF = bits := by
  rw [decode_eq_ok_iff, and_fullMask_eq_iff hbits, hop, harg, BitVec.toNat_eq (y := 0)]
  exact Iff.rfl

theorem decode_eq_reset_iff : decode w = .ok .reset ↔ w &&& 0xFFFF = 0x1000 :=
  decode_eq_ok_iff_fullMask (by decide) (by decide) rfl

theorem decode_eq_length_iff : decode w = .ok .length ↔ w &&& 0xFFFF = 0x4000 :=
  decode_eq_ok_iff_fullMask (by decide) (by decide) rfl

theorem decode_eq_capacity_iff : decode w = .ok .capacity ↔ w &&& 0xFFFF = 0x5000 :=
  decode_eq_ok_iff_fullMask (by decide) (by decide) rfl

theorem selects_eq_true_iff {r : OpcodeRow} : r.selects w = true ↔ w &&& r.mask = r.bits := beq_iff_eq

/-- A row whose mask covers the whole `op` selects only words with its own `op`. -/
theorem opField_eq_of_selects {r : OpcodeRow} (hmask : opField r.mask = BitVec.allOnes 4)
    (h : r.selects w = true) : opField w = opField r.bits := by
  obtain ⟨hop, -⟩ := and_eq_iff_fields.mp (selects_eq_true_iff.mp h)
  rwa [hmask, BitVec.and_allOnes] at hop

theorem opField_mask_of_mem_opcodeMap : ∀ r ∈ opcodeMap, opField r.mask = BitVec.allOnes 4 := by decide

/-- No word matches two rows: the rows differ in the `op`. -/
theorem opcodeMap_pairwise_disjoint :
    opcodeMap.Pairwise fun r r' => ∀ w, ¬ (r.selects w = true ∧ r'.selects w = true) := by
  have hop : opcodeMap.Pairwise fun r r' => opField r.bits ≠ opField r'.bits := by decide
  refine hop.imp_of_mem fun {r r'} hr hr' hne w ⟨hw, hw'⟩ => hne ?_
  rw [← opField_eq_of_selects (opField_mask_of_mem_opcodeMap r hr) hw,
    opField_eq_of_selects (opField_mask_of_mem_opcodeMap r' hr') hw']

end

/-- Settles O3: each command's decoding is its row's test, and two rows never share an `op`. -/
theorem decodeFollowsOpcodeMap : Obligations.DecodeFollowsOpcodeMap :=
  ⟨fun _ => ⟨fun _ => decode_eq_process_iff, decode_eq_reset_iff, fun _ => decode_eq_append_iff,
    fun _ => decode_eq_get_iff, decode_eq_length_iff, decode_eq_capacity_iff⟩, opcodeMap_pairwise_disjoint⟩

/-! ### Reserved words (R72) -/

section
variable {w : CommandWord}

theorem opcodeRow_mem_opcodeMap (i : Instr) : opcodeRow i ∈ opcodeMap := by
  cases i <;> simp [opcodeRow, opcodeMap]

/-- A word that is a command matches the row of that command. -/
theorem opcodeRow_selects_of_decode_eq_ok {i : Instr} (h : decode w = .ok i) :
    (opcodeRow i).selects w = true := by
  rw [selects_eq_true_iff]
  cases i with
  | process b => exact (decode_eq_process_iff.mp h).1
  | reset => exact decode_eq_reset_iff.mp h
  | append b => exact (decode_eq_append_iff.mp h).1
  | get k => exact (decode_eq_get_iff.mp h).1
  | length => exact decode_eq_length_iff.mp h
  | capacity => exact decode_eq_capacity_iff.mp h

/-- A word that matches a row is a command. -/
theorem exists_decode_eq_ok_of_selects {r : OpcodeRow} (hr : r ∈ opcodeMap) (h : r.selects w = true) :
    ∃ i, decode w = .ok i := by
  rw [selects_eq_true_iff] at h
  simp only [opcodeMap, List.mem_cons, List.not_mem_nil, or_false] at hr
  obtain rfl | rfl | rfl | rfl | rfl | rfl := hr
  · exact ⟨_, decode_eq_process_iff.mpr ⟨h, rfl⟩⟩
  · exact ⟨_, decode_eq_reset_iff.mpr h⟩
  · exact ⟨_, decode_eq_append_iff.mpr ⟨h, rfl⟩⟩
  · exact ⟨_, decode_eq_get_iff.mpr ⟨h, rfl⟩⟩
  · exact ⟨_, decode_eq_length_iff.mpr h⟩
  · exact ⟨_, decode_eq_capacity_iff.mpr h⟩

theorem exists_decode_eq_error_iff :
    (∃ e, decode w = .error e) ↔ ∀ r ∈ opcodeMap, r.selects w = false := by
  constructor
  · rintro ⟨e, he⟩ r hr
    rw [← Bool.not_eq_true]
    intro hw
    obtain ⟨i, hi⟩ := exists_decode_eq_ok_of_selects hr hw
    rw [he] at hi
    cases hi
  · intro hnone
    cases hd : decode w with
    | ok i =>
      have hw := opcodeRow_selects_of_decode_eq_ok hd
      rw [hnone _ (opcodeRow_mem_opcodeMap i)] at hw
      cases hw
    | error e => exact ⟨e, rfl⟩

end

theorem step_of_decode_eq_error {s : State} {w : CommandWord} {rest : List CommandWord} {e : Reserved}
    (hpending : s.pending = w :: rest) (hd : decode w = .error e) :
    step s = .next { s with pending := rest, trace := s.trace ++ [.response (.err .illegalCommand)] } := by
  have hrest : s.takeCommand.pending = rest := by rw [takeCommand_pending, hpending, List.tail_cons]
  unfold step State.nextWord
  rw [hpending, ← hrest, List.head?_cons]
  simp only [hd]
  rfl

/-- Settles O4: the words without a row and their classes, and the step that refuses such a word. -/
theorem reservedWordsRaiseIllegalCommand : Obligations.ReservedWordsRaiseIllegalCommand := by
  intro w
  refine ⟨exists_decode_eq_error_iff, decode_eq_error_iff, decode_eq_error_iff, decode_eq_error_iff,
    fun s rest hpending hnone => ?_⟩
  obtain ⟨e, he⟩ := exists_decode_eq_error_iff.mpr hnone
  exact step_of_decode_eq_error hpending he

/-! ### `PROCESS` and the frame predicate (R66) -/

theorem processByte_of_validFrame {s : State} {b : Byte} (hnoise : s.isNoise b = false)
    (hvalid : ValidFrame (s.accept b).content) : s.processByte b = (s.accept b).dispatchFrame := by
  obtain ⟨hn, -⟩ | ⟨-, -, hdispatch⟩ | ⟨-, hv, -⟩ := processByte_cases s b
  · exact absurd (hnoise.symm.trans hn) Bool.false_ne_true
  · exact hdispatch
  · exact absurd hvalid hv

theorem processByte_of_not_validFrame {s : State} {b : Byte} (hnoise : s.isNoise b = false)
    (hvalid : ¬ ValidFrame (s.accept b).content) : s.processByte b = s.accept b := by
  obtain ⟨hn, -⟩ | ⟨-, hv, -⟩ | ⟨-, -, hkeep⟩ := processByte_cases s b
  · exact absurd (hnoise.symm.trans hn) Bool.false_ne_true
  · exact absurd hv hvalid
  · exact hkeep

/-- Settles O36: an accepted byte ends in the dispatch or in the append alone, as the content after the append decides. -/
theorem frameEmittedExactlyForValidFrame : Obligations.FrameEmittedExactlyForValidFrame := by
  intro s t b haccept h
  have hnoise : s.isNoise b = false := isNoise_eq_false_iff.mpr haccept
  rw [exec_process] at h
  cases h
  refine ⟨fun hvalid => ?_, fun hvalid => ?_⟩
  · rw [processByte_of_validFrame hnoise hvalid]
    refine ⟨?_, rfl⟩
    rw [respond_trace, dispatchFrame_trace, accept_trace, accept_cfg, List.append_assoc]
    rfl
  · rw [processByte_of_not_validFrame hnoise hvalid, respond_trace, accept_trace, respond_len]
    exact ⟨rfl, rfl⟩

/-! ### The parts of a frame (R63, R68) -/

/-- The bytes the checksum is over, of `MkFrame`: the header bytes, the payload size and the payload. -/
def mkBody (h1 h2 h3 : Byte) (p : List Byte) : List Byte := [h1, h2, h3, BitVec.ofNat 8 p.length] ++ p

/-- A body between the sync byte and its trailer. -/
def enclose (body : List Byte) : List Byte := SYNC :: (body ++ [sum8 body, TERM])

/-- The bytes between the first byte and the last two. -/
def frameBody (f : List Byte) : List Byte := (f.drop 1).take (f.length - 3)

theorem chk_eq_sum8_frameBody (f : List Byte) : chk f = sum8 (frameBody f) := rfl

theorem mkFrame_eq_enclose (h1 h2 h3 : Byte) (p : List Byte) :
    mkFrame h1 h2 h3 p = enclose (mkBody h1 h2 h3 p) := by
  simp [mkFrame, enclose, mkBody]

@[simp] theorem length_mkBody (h1 h2 h3 : Byte) (p : List Byte) :
    (mkBody h1 h2 h3 p).length = p.length + 4 := by
  simp [mkBody]

section
variable (body : List Byte)

@[simp] theorem length_enclose : (enclose body).length = body.length + 3 := by
  simp [enclose]

theorem frameBody_enclose : frameBody (enclose body) = body := by
  simp [frameBody, enclose]

theorem byteAt_enclose_checksum : byteAt (enclose body) (body.length + 1) = sum8 body := by
  simp [byteAt, enclose]

theorem byteAt_enclose_terminator : byteAt (enclose body) (body.length + 2) = TERM := by
  simp [byteAt, enclose]

end

/-- `MkFrame` is well-formed for a payload whose size fits the payload-size byte (R68). -/
theorem wellFormedFrame_mkFrame (h1 h2 h3 : Byte) {p : List Byte} (hp : p.length ≤ 255) :
    WellFormedFrame (mkFrame h1 h2 h3 p) := by
  rw [mkFrame_eq_enclose]
  refine ⟨⟨?_, ?_, ?_, ?_⟩, rfl⟩
  · simp [MIN_LEN]
  · have hsize : byteAt (enclose (mkBody h1 h2 h3 p)) PSIZE_OFF = BitVec.ofNat 8 p.length := rfl
    rw [hsize, frameLength, BitVec.toNat_ofNat, Nat.mod_eq_of_lt (by omega), length_enclose, length_mkBody]
    rfl
  · rw [length_enclose]
    exact byteAt_enclose_terminator _
  · rw [length_enclose, chk_eq_sum8_frameBody, frameBody_enclose]
    exact (byteAt_enclose_checksum _).symm

/-- A list of at least three bytes is its first byte, its body and its last two bytes. -/
theorem eq_cons_frameBody_append {f : List Byte} (hf : 3 ≤ f.length) :
    f = byteAt f 0 :: (frameBody f ++ [byteAt f (f.length - 2), byteAt f (f.length - 1)]) := by
  obtain ⟨a, g, rfl⟩ := List.exists_cons_of_length_pos (show 0 < f.length by omega)
  rw [List.length_cons] at hf
  obtain ⟨c, t, htrailer⟩ := List.length_eq_two.mp
    (show (g.drop (g.length - 2)).length = 2 by rw [List.length_drop]; omega)
  have hg : g = g.take (g.length - 2) ++ [c, t] := by rw [← htrailer, List.take_append_drop]
  generalize g.take (g.length - 2) = body at hg
  rw [hg]
  simp [byteAt, frameBody]

theorem eq_enclose_frameBody {f : List Byte} (hf : WellFormedFrame f) : f = enclose (frameBody f) := by
  obtain ⟨⟨hmin, -, hterm, hchk⟩, hsync⟩ := hf
  have hparts := eq_cons_frameBody_append (f := f) (le_trans (by decide) hmin)
  rwa [hsync, hterm, ← hchk, chk_eq_sum8_frameBody] at hparts

theorem length_of_wellFormedFrame {f : List Byte} (hf : WellFormedFrame f) :
    f.length = (byteAt f 4).toNat + 7 := by
  obtain ⟨⟨-, hlen, -, -⟩, -⟩ := hf
  exact hlen

theorem take_four_drop_one : ∀ {f : List Byte}, 5 ≤ f.length →
    (f.drop 1).take 4 = [byteAt f 1, byteAt f 2, byteAt f 3, byteAt f 4]
  | _ :: _ :: _ :: _ :: _ :: _, _ => rfl

/-- The payload field of a well-formed frame holds as many bytes as the frame declares. -/
theorem length_payload {f : List Byte} (hf : WellFormedFrame f) :
    ((f.drop 5).take (byteAt f 4).toNat).length = (byteAt f 4).toNat := by
  rw [List.length_take, List.length_drop, length_of_wellFormedFrame hf]
  omega

/-- The body of a well-formed frame: three header bytes, the payload size and the payload. -/
theorem frameBody_eq_mkBody {f : List Byte} (hf : WellFormedFrame f) :
    frameBody f = mkBody (byteAt f 1) (byteAt f 2) (byteAt f 3) ((f.drop 5).take (byteAt f 4).toNat) := by
  have hlen := length_of_wellFormedFrame hf
  rw [frameBody, mkBody, length_payload hf, BitVec.ofNat_toNat, BitVec.setWidth_eq,
    show f.length - 3 = 4 + (byteAt f 4).toNat by omega, List.take_add, List.drop_drop,
    take_four_drop_one (by omega)]

/-- Settles O43: both sides are the sync byte, a body, and the trailer made of that body. -/
theorem wellFormedFramesAreMkFrames : Obligations.WellFormedFramesAreMkFrames := by
  refine ⟨fun h1 h2 h3 p hp => ⟨wellFormedFrame_mkFrame h1 h2 h3 hp, ?_⟩, fun f hf => ⟨?_, length_payload hf⟩⟩
  · rw [mkFrame_eq_enclose, length_enclose, length_mkBody]
  · rw [mkFrame_eq_enclose, ← frameBody_eq_mkBody hf]
    exact eq_enclose_frameBody hf

end Sys2Proof.Proofs

namespace Sys2Proof.Proofs

open Sys2Proof.Machine Sys2Proof.Laws

/-! ### A command after another, and its two responses -/

theorem runCommands_cons {i : Instr} {s t : State} (is : List Instr) (h : exec i s = .next t) :
    runCommands (i :: is) s = runCommands is t := by
  simp only [runCommands, h]

theorem runCommands_pair {i j : Instr} {s t u : State} (hi : exec i s = .next t) (hj : exec j t = .next u) :
    runCommands [i, j] s = .next u := by
  rw [runCommands_cons _ hi, runCommands_cons _ hj, runCommands_nil]

theorem respond_respond (s : State) (r r' : Response) :
    (s.respond r).respond r' = { s with trace := s.trace ++ [.response r, .response r'] } :=
  state_ext rfl rfl rfl rfl rfl (List.append_assoc s.trace [.response r] [.response r'])

/-! ### Bytes appended and read back (R28, R90) -/

theorem content_of_len_eq_zero {s : State} (h : s.len = 0) : s.content = [] :=
  List.eq_nil_of_length_eq_zero (by rw [length_content, h])

/-- `GET` answers from the content (R28, R86). -/
theorem exec_get_content {s : State} {k : Nat} (hk : k < s.content.length) :
    exec (.get k) s = .next { s with trace := s.trace ++ [.response (.data s.content[k].toNat)] } := by
  rw [exec_get_inside (by rwa [← length_content]), getElem_content hk]
  rfl

/-- As long as they fit, appended bytes extend the content, whatever `start` (R28, R90). -/
theorem runCommands_appendAll (bs : List Byte) {s : State} (hroom : s.len + bs.length ≤ s.capacity) :
    ∃ t, runCommands (appendAll bs) s = .next t ∧ t.capacity = s.capacity ∧ t.content = s.content ++ bs := by
  induction bs generalizing s with
  | nil => exact ⟨s, rfl, rfl, (List.append_nil _).symm⟩
  | cons b bs ih =>
    rw [List.length_cons] at hroom
    have happend := exec_append_room b (s := s) (by omega)
    have hcontent := content_bufAppend b (s := s) (by omega)
    obtain ⟨t, hrun, hcap, ht⟩ := ih (s := (s.bufAppend b).respond .ok)
      (by rw [respond_len, bufAppend_len, capacity_respond, capacity_bufAppend]; omega)
    refine ⟨t, (runCommands_cons _ happend).trans hrun, hcap, ?_⟩
    rw [ht, content_respond, hcontent, List.append_assoc, List.singleton_append]

/-- From an empty buffer, `C + 1` appended bytes are the content except that the last also stands at index 0 (R29, R90). -/
theorem runCommands_appendAll_full (bs : List Byte) (b : Byte) {s : State} (hempty : s.len = 0)
    (hfull : bs.length = s.capacity) :
    ∃ t, runCommands (appendAll (bs ++ [b])) s = .next t ∧ t.content = (bs ++ [b]).set 0 b := by
  obtain ⟨u, hrun, hcap, hu⟩ := runCommands_appendAll bs (s := s) (by omega)
  rw [content_of_len_eq_zero hempty, List.nil_append] at hu
  have hlen : u.len = u.capacity := by rw [← length_content, hu, hfull, hcap]
  refine ⟨(u.bufAppend b).respond .ok, ?_, ?_⟩
  · rw [appendAll, List.map_append, ← appendAll, runCommands_append _ hrun]
    exact runCommands_cons [] (exec_append_room b hlen.le)
  · rw [content_respond, content_bufAppend_full b hlen, hu]

/-- Settles O28: the content after the appends is the bytes, or at `n = C + 1` the bytes with the last also at index 0, and `GET`
answers from the content. -/
theorem circularAddressing : Obligations.CircularAddressing := by
  refine fun s bs hempty _ => ⟨fun hfit => ?_, fun hover => ?_⟩
  · obtain ⟨t, hrun, -, ht⟩ := runCommands_appendAll bs (s := s) (by omega)
    rw [content_of_len_eq_zero hempty, List.nil_append] at ht
    subst ht
    exact ⟨t, hrun, (length_content t).symm, fun k hk => exec_get_content hk⟩
  · obtain rfl | ⟨cs, b, rfl⟩ := List.eq_nil_or_concat' bs
    · cases hover
    have hfull : cs.length = s.capacity := by simpa using hover
    obtain ⟨t, hrun, ht⟩ := runCommands_appendAll_full cs b hempty hfull
    have hlen : t.content.length = (cs ++ [b]).length := by rw [ht, List.length_set]
    refine ⟨t, hrun, (length_content t).symm.trans hlen, ?_, fun k hk hk1 => ?_⟩
    · rw [exec_get_content (by omega)]
      simp [ht, byteAt, ← hfull]
    · rw [exec_get_content (hk.trans_eq hlen.symm)]
      simp [ht, List.getElem_set_ne (show 0 ≠ k by omega)]

/-! ### `RESET` and the idle guard after it (R89, R101) -/

theorem bufReset_of_empty {s : State} (hlen : s.len = 0) (hstart : s.start = 0) : s.bufReset = s :=
  state_ext rfl rfl hstart.symm hlen.symm rfl rfl

theorem processByte_of_noise {s : State} {b : Byte} (h : s.isNoise b = true) : s.processByte b = s :=
  if_pos h

/-- The first byte of a frame is kept: no single byte is a frame (R101, R104). -/
theorem processByte_sync_of_empty {s : State} (h : s.len = 0) : s.processByte SYNC = s.bufAppend SYNC := by
  have haccept : s.accept SYNC = s.bufAppend SYNC := accept_of_ne SYNC (by omega)
  rw [← haccept]
  refine processByte_of_not_validFrame (isNoise_eq_false_iff.mpr (.inr rfl)) fun hvalid => ?_
  obtain ⟨hmin, -⟩ := hvalid
  rw [length_content, haccept, bufAppend_len, h] at hmin
  exact absurd hmin (by decide)

/-- Settles O21: the buffer reset writes `len` and `start` only, and the next byte meets an empty buffer. -/
theorem resetCommandEmptiesBuffer : Obligations.ResetCommandEmptiesBuffer := by
  refine fun s => ⟨exec_reset s, fun hlen hstart => ?_, fun b hb => ?_, ?_⟩
  · rw [exec_reset, bufReset_of_empty hlen hstart]
    rfl
  · have hnoise : (s.bufReset.respond .ok).isNoise b = true := isNoise_iff.mpr ⟨rfl, hb⟩
    rw [runCommands_pair (exec_reset s) (exec_process b _), processByte_of_noise hnoise, respond_respond]
    rfl
  · refine (runCommands_pair (exec_reset s) (exec_process SYNC _)).trans ?_
    rw [processByte_sync_of_empty rfl]
    have hslot : s.bufReset.slot 0 = 0 := by rw [slot_of_start_eq_zero rfl, Nat.zero_mod]
    refine congrArg _ (state_ext rfl ?_ rfl rfl rfl (List.append_assoc s.trace [okEvent] [okEvent]))
    exact congrArg (s.mem.write · SYNC) hslot

/-! ### `APPEND` and `GET` (R85, R86) -/

/-- Settles O22: the two ways of `APPEND`, with the fields written out. -/
theorem appendStoresOrOverruns : Obligations.AppendStoresOrOverruns :=
  fun _ b => ⟨exec_append_room b, exec_append_over b⟩

theorem bufGet_capacity (s : State) : s.bufGet s.capacity = s.bufGet 0 :=
  congrArg s.mem.read (slot_capacity s)

/-- Settles O23: the two ways of `GET`; after `RESET` no index is below `len`, and index `C` shares the cell of index 0. -/
theorem getReadsInsideAndFaultsOutside : Obligations.GetReadsInsideAndFaultsOutside := by
  refine fun s k => ⟨exec_get_inside, exec_get_outside, ?_, fun hlen => ?_, fun b hlen => ?_⟩
  · rw [runCommands_pair (exec_reset s) (exec_get_outside (Nat.zero_le k)), State.raise, respond_respond]
    rfl
  · rw [exec_get_inside (by omega), exec_get_inside (by omega), bufGet_capacity]
  · refine ⟨_, runCommands_pair (exec_append_room b hlen.le) (exec_get_inside (Nat.succ_pos s.len)), ?_⟩
    rw [respond_respond, bufGet_respond, bufGet_zero_bufAppend_full b hlen]
    rfl

end Sys2Proof.Proofs

namespace Sys2Proof.Proofs

open Sys2Proof.Machine Sys2Proof.Laws

/-! ### The guards in front of the append (R101, R102) -/

section
variable {s : State} {b : Byte}

theorem guardFires_eq_false_iff : s.guardFires = false ↔ s.len ≠ s.capacity + 1 := by
  rw [← Bool.not_eq_true, guardFires_iff]

theorem processByte_of_accepted (h : s.isNoise b = false) : s.processByte b = (s.accept b).complete :=
  if_neg (ne_true_of_eq_false h)

theorem isNoise_of_len_pos (h : 0 < s.len) : s.isNoise b = false :=
  isNoise_eq_false_iff.mpr (.inl h.ne')

/-- A candidate of seven bytes is no new one: the guard did not fire before its last byte (R102). -/
theorem accept_of_seven_le (h : 7 ≤ (s.accept b).len) : s.guardFires = false ∧ s.accept b = s.bufAppend b := by
  have hne : s.len ≠ s.capacity + 1 := by
    intro hfull
    rw [accept_of_full b hfull, bufAppend_len, bufReset_len] at h
    omega
  exact ⟨guardFires_eq_false_iff.mpr hne, accept_of_ne b hne⟩

theorem accept_len (s : State) (b : Byte) : (s.accept b).len = if s.guardFires then 1 else s.len + 1 := by
  unfold State.accept State.capacityGuard
  split <;> rfl

end

/-- Settles O30: noise ends at the first test, any other byte goes through all the later steps. -/
theorem processDropsNoise : Obligations.ProcessDropsNoise := by
  refine fun s b => ⟨fun hlen hb => ?_, fun haccept => ?_⟩
  · rw [exec_process, processByte_of_noise (isNoise_iff.mpr ⟨hlen, hb⟩)]
    rfl
  · rw [exec_process, processByte_of_accepted (isNoise_eq_false_iff.mpr haccept)]
    rfl

/-! ### The outcomes of `PROCESS` (R107) -/

/-- What steps 4 and 5 find when they end with an outcome, on the state after the append (R104 to R126). -/
def CompletesWith (s : State) : ProcessOutcome → Prop
  | .noise => False
  | .short => s.len < 7
  | .acc => 7 ≤ s.len ∧ s.len ≠ s.expected
  | .badTerm => 7 ≤ s.len ∧ s.len = s.expected ∧ s.bufGet (s.len - 1) ≠ TERM
  | .badSum => 7 ≤ s.len ∧ s.len = s.expected ∧ s.bufGet (s.len - 1) = TERM ∧ chk s.content ≠ s.bufGet (s.len - 2)
  | .dispatch => ValidFrame s.content

section
variable {s : State} {b : Byte} {o : ProcessOutcome}

theorem completesWith_completeOutcome (s : State) : CompletesWith s s.completeOutcome := by
  unfold State.completeOutcome
  cases hshort : s.isShort with
  | true =>
    have hlen : s.len < 7 := of_decide_eq_true hshort
    exact hlen
  | false =>
    have h7 := isShort_eq_false_iff.mp hshort
    cases hinc : s.isIncomplete with
    | true => exact ⟨h7, of_decide_eq_true hinc⟩
    | false =>
      have hL := isIncomplete_eq_false_iff.mp hinc
      cases hterm : s.badTerminator with
      | true =>
        refine ⟨h7, hL, fun hT => ?_⟩
        rw [badTerminator_eq_false_iff.mpr ⟨by omega, hT⟩] at hterm
        cases hterm
      | false =>
        cases hsum : s.badChecksum with
        | true =>
          refine ⟨h7, hL, (badTerminator_eq_false_iff.mp hterm).2, ?_⟩
          rw [← checksum_eq_chk]
          exact of_decide_eq_true hsum
        | false => exact (validFrame_content s).mpr ⟨hshort, hinc, hterm, hsum⟩

theorem completesWith_of_eq (h : s.completeOutcome = o) : CompletesWith s o :=
  h ▸ completesWith_completeOutcome s

theorem completeOutcome_of_short (h : s.len < 7) : s.completeOutcome = .short :=
  if_pos (decide_eq_true h)

theorem completeOutcome_of_incomplete (h7 : 7 ≤ s.len) (hL : s.len ≠ s.expected) : s.completeOutcome = .acc := by
  have hinc : s.isIncomplete = true := decide_eq_true hL
  simp [State.completeOutcome, isShort_eq_false_iff.mpr h7, hinc]

theorem completeOutcome_eq_dispatch_iff : s.completeOutcome = .dispatch ↔ ValidFrame s.content := by
  refine ⟨completesWith_of_eq, fun hvalid => ?_⟩
  obtain ⟨hshort, hinc, hterm, hsum⟩ := (validFrame_content s).mp hvalid
  simp [State.completeOutcome, hshort, hinc, hterm, hsum]

theorem processOutcome_of_accepted (h : s.isNoise b = false) : s.processOutcome b = (s.accept b).completeOutcome :=
  if_neg (ne_true_of_eq_false h)

theorem processOutcome_eq_noise_iff : s.processOutcome b = .noise ↔ s.isNoise b = true := by
  refine ⟨fun h => ?_, fun h => if_pos h⟩
  rw [← Bool.not_eq_false]
  intro hnoise
  rw [processOutcome_of_accepted hnoise] at h
  exact completesWith_of_eq h

theorem isNoise_of_outcome (h : s.processOutcome b = o) (ho : o ≠ .noise) : s.isNoise b = false := by
  rw [← Bool.not_eq_true, ← processOutcome_eq_noise_iff, h]
  exact ho

theorem completesWith_accept (h : s.processOutcome b = o) (ho : o ≠ .noise) : CompletesWith (s.accept b) o :=
  completesWith_of_eq (processOutcome_of_accepted (isNoise_of_outcome h ho) ▸ h)

theorem processByte_of_dispatch (h : s.processOutcome b = .dispatch) :
    s.processByte b = (s.accept b).dispatchFrame :=
  processByte_of_validFrame (isNoise_of_outcome h nofun) (completesWith_accept h nofun)

/-- Every outcome but `NOISE` and `DISPATCH` keeps the byte and does nothing else (R104, R106, R125). -/
theorem processByte_of_kept (h : s.processOutcome b = o) (hnoise : o ≠ .noise) (hdispatch : o ≠ .dispatch) :
    s.processByte b = s.accept b := by
  have haccept := isNoise_of_outcome h hnoise
  refine processByte_of_not_validFrame haccept fun hvalid => hdispatch ?_
  rw [← h, processOutcome_of_accepted haccept, completeOutcome_eq_dispatch_iff.mpr hvalid]

/-! ### `PROCESS` by the length on entry (R102 to R106) -/

/-- An outcome found on the state after the append, when it is no dispatch, leaves that state. -/
theorem processByte_of_completeOutcome {t : State} (haccept : s.isNoise b = false) (ht : s.accept b = t)
    (ho : t.completeOutcome = o) (hnoise : o ≠ .noise) (hdispatch : o ≠ .dispatch) :
    s.processOutcome b = o ∧ s.processByte b = t := by
  subst ht
  have hout : s.processOutcome b = o := (processOutcome_of_accepted haccept).trans ho
  exact ⟨hout, processByte_of_kept hout hnoise hdispatch⟩

/-- At the guard length the byte, whatever its value, starts a new candidate (R102). -/
theorem processByte_of_full (b : Byte) (h : s.len = s.capacity + 1) :
    s.processOutcome b = .short ∧ s.processByte b = s.bufReset.bufAppend b :=
  processByte_of_completeOutcome (isNoise_of_len_pos (by omega)) (accept_of_full b h)
    (completeOutcome_of_short (show 0 + 1 < 7 by decide)) nofun nofun

theorem processByte_of_short (haccept : s.isNoise b = false) (hne : s.len ≠ s.capacity + 1) (h : s.len + 1 < 7) :
    s.processOutcome b = .short ∧ s.processByte b = s.bufAppend b :=
  processByte_of_completeOutcome haccept (accept_of_ne b hne) (completeOutcome_of_short h) nofun nofun

theorem processByte_of_incomplete (hne : s.len ≠ s.capacity + 1) (h7 : 7 ≤ s.len + 1)
    (hL : s.len + 1 ≠ (s.bufAppend b).expected) :
    s.processOutcome b = .acc ∧ s.processByte b = s.bufAppend b :=
  processByte_of_completeOutcome (isNoise_of_len_pos (by omega)) (accept_of_ne b hne)
    (completeOutcome_of_incomplete h7 hL) nofun nofun

/-- At its declared length a candidate is dispatched or rejected (R120 to R126). -/
theorem processByte_of_expected (hne : s.len ≠ s.capacity + 1) (h7 : 7 ≤ s.len + 1)
    (hL : s.len + 1 = (s.bufAppend b).expected) :
    s.processOutcome b = .dispatch ∧ s.processByte b = (s.bufAppend b).dispatchFrame ∨
    (s.processOutcome b = .badTerm ∨ s.processOutcome b = .badSum) ∧ s.processByte b = s.bufAppend b := by
  have hnoise : s.isNoise b = false := isNoise_of_len_pos (by omega)
  have hwith := completesWith_completeOutcome (s.accept b)
  rw [← processOutcome_of_accepted hnoise, accept_of_ne b hne] at hwith
  rw [← accept_of_ne b hne]
  cases ho : s.processOutcome b with
  | noise =>
    rw [ho] at hwith
    exact hwith.elim
  | short =>
    rw [ho] at hwith
    exact absurd h7 (not_le.mpr hwith)
  | acc =>
    rw [ho] at hwith
    obtain ⟨-, hacc⟩ := hwith
    exact absurd hL hacc
  | badTerm => exact .inr ⟨.inl rfl, processByte_of_kept ho nofun nofun⟩
  | badSum => exact .inr ⟨.inr rfl, processByte_of_kept ho nofun nofun⟩
  | dispatch => exact .inl ⟨rfl, processByte_of_dispatch ho⟩

theorem expected_bufAppend_eq (h7 : 7 ≤ s.len + 1) :
    (s.bufAppend b).expected = (byteAt (s.bufAppend b).content 4).toNat + 7 := by
  rw [byteAt_content (by rw [bufAppend_len]; omega)]
  rfl

end

/-- Settles O31: the comparison is `len = C + 1`, and there the byte meets a buffer that has just been reset. -/
theorem capacityGuardRestartsWithoutSync : Obligations.CapacityGuardRestartsWithoutSync := by
  refine fun s => ⟨decide_eq_true_iff, guardFires_iff s, fun h => if_pos h, fun h => if_neg (ne_true_of_eq_false h),
    fun b hfull => ?_⟩
  obtain ⟨-, hprocess⟩ := processByte_of_full b hfull
  have hslot : s.bufReset.slot 0 = 0 := by rw [slot_of_start_eq_zero rfl, Nat.zero_mod]
  rw [exec_process, hprocess]
  exact congrArg _ (state_ext rfl (congrArg (s.mem.write · b) hslot) rfl rfl rfl rfl)

/-- Settles O32: the completeness check returns at its first test. -/
theorem processAppendsUntilSevenBytes : Obligations.ProcessAppendsUntilSevenBytes := by
  intro s b haccept hne h7
  obtain ⟨hshort, hprocess⟩ := processByte_of_short (isNoise_eq_false_iff.mpr haccept) hne h7
  exact ⟨by rw [exec_process, hprocess]; rfl, hshort⟩

/-- Settles O33: the completeness check returns at its second test, on the byte at offset 4 after the append. -/
theorem processKeepsIncompleteCandidate : Obligations.ProcessKeepsIncompleteCandidate := by
  intro s b hne h7 hL
  rw [← expected_bufAppend_eq h7] at hL
  obtain ⟨hacc, hprocess⟩ := processByte_of_incomplete hne h7 hL
  exact ⟨by rw [exec_process, hprocess]; rfl, hacc⟩

/-! ### The table of outcomes (R107) -/

section
variable {s : State} {b : Byte} {o : ProcessOutcome}

theorem processByte_trace (s : State) (b : Byte) :
    (s.processByte b).trace = s.trace ++ (if s.processOutcome b = .dispatch
      then [.frame s.cfg.handler (s.accept b).content (s.accept b).len] else []) := by
  split
  · next h => rw [processByte_of_dispatch h, dispatchFrame_trace, accept_trace, accept_cfg]
  · next h =>
    rw [List.append_nil]
    by_cases hnoise : s.processOutcome b = .noise
    · rw [processByte_of_noise (processOutcome_eq_noise_iff.mp hnoise)]
    · rw [processByte_of_kept rfl hnoise h, accept_trace]

/-- From seven bytes on, an outcome that keeps the byte is found on the state `PROCESS` leaves, which is the one append. -/
theorem completesWith_processByte (h : s.processOutcome b = o) (hnoise : o ≠ .noise) (hdispatch : o ≠ .dispatch)
    (h7 : CompletesWith (s.accept b) o → 7 ≤ (s.accept b).len) :
    s.guardFires = false ∧ (s.processByte b).len = s.len + 1 ∧ CompletesWith (s.processByte b) o := by
  have hwith := completesWith_accept h hnoise
  obtain ⟨hguard, happend⟩ := accept_of_seven_le (h7 hwith)
  rw [processByte_of_kept h hnoise hdispatch]
  exact ⟨hguard, by rw [happend, bufAppend_len], hwith⟩

end

/-- Settles O37: the outcome tells what steps 4 and 5 found, and which of the three ways of `PROCESS` was taken. -/
theorem processOutcomeTable : Obligations.ProcessOutcomeTable := by
  intro s t b h
  rw [exec_process] at h
  cases h
  refine ⟨processOutcome_eq_noise_iff.trans isNoise_iff, fun ho => ?_, fun ho => ?_, fun ho => ?_, fun ho => ?_,
    fun ho => ?_, fun ho => ?_, fun hguard => ?_, ?_⟩
  · have hnoise := processOutcome_eq_noise_iff.mp ho
    obtain ⟨hlen, -⟩ := isNoise_iff.mp hnoise
    rw [processByte_of_noise hnoise]
    exact ⟨rfl, hlen⟩
  · rw [processByte_of_kept ho nofun nofun, respond_len, accept_len]
    exact ⟨accept_len s b ▸ completesWith_accept ho nofun, rfl⟩
  · obtain ⟨hguard, hlen, h7, hL⟩ := completesWith_processByte ho nofun nofun And.left
    exact ⟨hguard, h7, hL, hlen⟩
  · obtain ⟨hguard, hlen, -, hL, hT⟩ := completesWith_processByte ho nofun nofun And.left
    exact ⟨hguard, hL, hT, hlen⟩
  · obtain ⟨hguard, hlen, -, hL, hT, hC⟩ := completesWith_processByte ho nofun nofun And.left
    exact ⟨hguard, hL, hT, hC, hlen⟩
  · have hvalid : ValidFrame (s.accept b).content := completesWith_accept ho nofun
    have h7 : 7 ≤ (s.accept b).content.length := hvalid.left
    rw [length_content] at h7
    obtain ⟨hguard, happend⟩ := accept_of_seven_le h7
    rw [processByte_of_dispatch ho, respond_len, dispatchFrame_len]
    exact ⟨hguard, happend ▸ hvalid, rfl⟩
  · obtain ⟨hshort, -⟩ := processByte_of_full b ((guardFires_iff s).mp hguard)
    exact hshort
  · rw [respond_trace, processByte_trace, List.append_assoc]
    split <;> rfl

/-! ### The phases (R34, R109) -/

/-- The lengths of each phase; `FULL` takes precedence (R34). -/
def InPhase (s : State) : Phase → Prop
  | .full => s.len = s.capacity + 1
  | .idle => s.len = 0
  | .header => s.len ≠ s.capacity + 1 ∧ 0 < s.len ∧ s.len < 7
  | .accum => s.len ≠ s.capacity + 1 ∧ 7 ≤ s.len ∧ s.len < s.expected
  | .stale => s.len ≠ s.capacity + 1 ∧ 7 ≤ s.len ∧ s.expected ≤ s.len

section
variable {s : State} {b : Byte} {p : Phase}

theorem phase_eq (s : State) : s.phase =
    if s.len = s.capacity + 1 then .full else if s.len = 0 then .idle else if s.len < 7 then .header
    else if s.len < s.expected then .accum else .stale := rfl

theorem inPhase_phase (s : State) : InPhase s s.phase := by
  rw [phase_eq]
  split
  case isTrue hfull => exact hfull
  case isFalse hfull =>
    split
    case isTrue hidle => exact hidle
    case isFalse hidle =>
      split
      case isTrue h7 => exact ⟨hfull, Nat.pos_of_ne_zero hidle, h7⟩
      case isFalse h7 =>
        split
        case isTrue hL => exact ⟨hfull, not_lt.mp h7, hL⟩
        case isFalse hL => exact ⟨hfull, not_lt.mp h7, not_lt.mp hL⟩

theorem phase_of_inPhase (h : InPhase s p) : s.phase = p := by
  rw [phase_eq]
  cases p with
  | full => exact if_pos h
  | idle =>
    have hempty : s.len = 0 := h
    rw [if_neg (by omega), if_pos hempty]
  | header =>
    obtain ⟨hfull, hpos, h7⟩ := h
    rw [if_neg hfull, if_neg hpos.ne', if_pos h7]
  | accum =>
    obtain ⟨hfull, h7, hL⟩ := h
    rw [if_neg hfull, if_neg (by omega), if_neg (not_lt.mpr h7), if_pos hL]
  | stale =>
    obtain ⟨hfull, h7, hL⟩ := h
    rw [if_neg hfull, if_neg (by omega), if_neg (not_lt.mpr h7), if_neg (not_lt.mpr hL)]

theorem phase_eq_iff : s.phase = p ↔ InPhase s p :=
  ⟨fun h => h ▸ inPhase_phase s, phase_of_inPhase⟩

/-- Where the length is not known to be below `C + 1`, `FULL` stands beside the phase (R34). -/
theorem phase_eq_or_full (h : s.len ≠ s.capacity + 1 → InPhase s p) : s.phase = p ∨ s.phase = .full := by
  by_cases hfull : s.len = s.capacity + 1
  · exact .inr (phase_of_inPhase hfull)
  · exact .inl (phase_of_inPhase (h hfull))

@[simp] theorem phase_respond (s : State) (r : Response) : (s.respond r).phase = s.phase := rfl

/-- An append with room does not reach offset 4 (R28). -/
theorem expected_bufAppend (h4 : 4 < s.len) (hroom : s.len ≤ s.capacity) : (s.bufAppend b).expected = s.expected :=
  congrArg frameLength (bufGet_bufAppend_below (i := 4) h4 (by omega))

/-- The first byte of a candidate leads to `HEADER`: one byte is below the guard length of every capacity (R109). -/
theorem phase_of_len_eq_one (h : s.len = 1) : s.phase = .header := by
  have hpos := capacity_pos s
  exact phase_of_inPhase ⟨by omega, by omega, by omega⟩

/-- Away from its declared length a candidate of at least six bytes grows by the byte, on the same side of that length (R109). -/
theorem processByte_phase_of_incomplete (hroom : s.len ≤ s.capacity) (h6 : 6 ≤ s.len)
    (hL : s.len + 1 ≠ s.expected) :
    (s.processByte b).len = s.len + 1 ∧
      (s.len + 1 < s.expected → (s.processByte b).phase = .accum ∨ (s.processByte b).phase = .full) ∧
      (s.expected < s.len + 1 → (s.processByte b).phase = .stale ∨ (s.processByte b).phase = .full) := by
  have hexp : (s.bufAppend b).expected = s.expected := expected_bufAppend (by omega) hroom
  obtain ⟨-, hprocess⟩ := processByte_of_incomplete (b := b) (by omega) (by omega) (hexp ▸ hL)
  have h7 : 7 ≤ (s.bufAppend b).len := Nat.succ_le_succ h6
  rw [hprocess]
  exact ⟨rfl, fun h => phase_eq_or_full fun hfull => ⟨hfull, h7, hexp ▸ h⟩,
    fun h => phase_eq_or_full fun hfull => ⟨hfull, h7, hexp ▸ h.le⟩⟩

/-- Where step 5 runs, a dispatch leads to `IDLE` and a reject to `STALE`, or to `FULL` (R109). -/
theorem processByte_phase_of_expected (hroom : s.len ≤ s.capacity) (h6 : 6 ≤ s.len)
    (hL : s.len + 1 = s.expected) :
    s.processOutcome b = .dispatch ∧ (s.processByte b).phase = .idle ∨
    (s.processOutcome b = .badTerm ∨ s.processOutcome b = .badSum) ∧ (s.processByte b).len = s.len + 1 ∧
      ((s.processByte b).phase = .stale ∨ (s.processByte b).phase = .full) := by
  have hexp : (s.bufAppend b).expected = s.expected := expected_bufAppend (by omega) hroom
  obtain ⟨ho, hprocess⟩ | ⟨ho, hprocess⟩ :=
    processByte_of_expected (b := b) (by omega) (by omega) (hexp ▸ hL)
  · rw [hprocess]
    exact .inl ⟨ho, phase_of_inPhase rfl⟩
  · rw [hprocess]
    exact .inr ⟨ho, rfl, phase_eq_or_full fun hfull => ⟨hfull, Nat.succ_le_succ h6, hexp ▸ hL.ge⟩⟩

/-- The declared length is seven, that of the shortest frame, exactly when no payload is declared (R105). -/
theorem expected_eq_seven_iff : s.expected = 7 ↔ s.bufGet 4 = 0 := by
  rw [State.expected, frameLength, BitVec.toNat_eq]
  exact Nat.add_eq_right

theorem seven_le_expected (s : State) : 7 ≤ s.expected := Nat.le_add_left 7 _

end

/-- Settles O40: in each phase the lengths decide which way `PROCESS` takes, and an append with room leaves the declared length. -/
theorem phaseTransitions : Obligations.PhaseTransitions := by
  rintro s t b ⟨-, -, -, hbound⟩ h
  have h7 := seven_le_expected s
  rw [exec_process] at h
  cases h
  simp only [phase_eq_iff (s := s), InPhase, respond_len, phase_respond, bufGet_respond]
  refine ⟨fun hfull => ?_, fun hidle hb => ?_, fun hidle hb => ?_, fun ⟨hne, hpos, _⟩ h5 => ?_,
    fun ⟨hne, _, _⟩ h6 hP => ?_, fun ⟨hne, _, _⟩ h6 hP => ?_, fun ⟨hne, hlen, _⟩ hL => ?_,
    fun ⟨hne, hlen, _⟩ hL => ?_, fun ⟨hne, hlen, hL⟩ => ?_⟩
  · obtain ⟨-, hprocess⟩ := processByte_of_full b hfull
    rw [hprocess]
    exact ⟨rfl, phase_of_len_eq_one rfl, bufGet_bufAppend_last s.bufReset b⟩
  · rw [processByte_of_noise (isNoise_iff.mpr ⟨hidle, hb⟩)]
    exact phase_of_inPhase hidle
  · have hlen : (s.bufAppend SYNC).len = 1 := by rw [bufAppend_len, hidle]
    rw [hb, show (0x0C : Byte) = SYNC from rfl, processByte_sync_of_empty hidle]
    exact ⟨hlen, phase_of_len_eq_one hlen⟩
  · obtain ⟨-, hprocess⟩ := processByte_of_short (b := b) (isNoise_of_len_pos hpos) hne (by omega)
    rw [hprocess]
    exact ⟨rfl, phase_eq_or_full fun hfull => ⟨hfull, Nat.succ_pos _, Nat.succ_lt_succ (by omega)⟩⟩
  · have hL : s.len + 1 = s.expected := by rw [expected_eq_seven_iff.mpr hP, h6]
    have hends := processByte_phase_of_expected (b := b) (by omega) h6.ge hL
    rwa [h6] at hends
  · have hL : s.expected ≠ 7 := mt expected_eq_seven_iff.mp hP
    obtain ⟨hgrow, haccum, -⟩ := processByte_phase_of_incomplete (b := b) (s := s) (by omega) h6.ge (by omega)
    exact ⟨by rw [hgrow, h6], haccum (by omega)⟩
  · obtain ⟨hgrow, haccum, -⟩ := processByte_phase_of_incomplete (b := b) (s := s) (by omega) (by omega) hL.ne
    exact ⟨hgrow, haccum hL⟩
  · exact processByte_phase_of_expected (by omega) (by omega) hL
  · obtain ⟨hgrow, -, hstale⟩ := processByte_phase_of_incomplete (b := b) (s := s) (by omega) (by omega) (by omega)
    exact ⟨hgrow, hstale (by omega)⟩

end Sys2Proof.Proofs

namespace Sys2Proof.Proofs

open Sys2Proof.Machine Sys2Proof.Laws

/-! ### Step 5: the validator at the declared length (R120 to R126) -/

section
variable {s : State} {b : Byte} {o : ProcessOutcome}

/-- At its declared length a candidate is judged by its terminator first, then by its checksum (R122, R124, R126). -/
theorem completeOutcome_of_expected (h7 : 7 ≤ s.len) (hL : s.len = s.expected) :
    s.completeOutcome = if s.bufGet (s.len - 1) ≠ TERM then .badTerm
      else if chk s.content ≠ s.bufGet (s.len - 2) then .badSum else .dispatch := by
  have hterm : s.badTerminator = decide (s.bufGet (s.len - 1) ≠ TERM) := by
    rw [State.badTerminator, decide_eq_false (by omega), Bool.false_or]
  have hsum : s.badChecksum = decide (chk s.content ≠ s.bufGet (s.len - 2)) := by
    rw [State.badChecksum, checksum_eq_chk]
  simp only [State.completeOutcome, isShort_eq_false_iff.mpr h7, isIncomplete_eq_false_iff.mpr hL, hterm, hsum,
    Bool.false_eq_true, if_false, decide_eq_true_eq]

/-- The byte that completes a candidate is its terminator, and the two tests read the content after the append (R122 to R124). -/
theorem processOutcome_of_expected (hne : s.len ≠ s.capacity + 1) (h7 : 7 ≤ s.len + 1)
    (hL : s.len + 1 = (s.bufAppend b).expected) :
    s.processOutcome b = if b ≠ TERM then .badTerm
      else if chk (s.bufAppend b).content ≠ byteAt (s.bufAppend b).content (s.len - 1) then .badSum
      else .dispatch := by
  have hlast : (s.bufAppend b).bufGet ((s.bufAppend b).len - 1) = b := bufGet_bufAppend_last s b
  have hsum : byteAt (s.bufAppend b).content (s.len - 1) = (s.bufAppend b).bufGet ((s.bufAppend b).len - 2) :=
    byteAt_content (by rw [bufAppend_len]; omega)
  rw [processOutcome_of_accepted (isNoise_of_len_pos (by omega)), accept_of_ne b hne,
    completeOutcome_of_expected h7 hL, hlast, hsum]

/-- `Chk` of the candidate is the sum over the offsets `1 .. L-3` (R63). -/
theorem chk_content_bufAppend (s : State) (b : Byte) :
    chk (s.bufAppend b).content = sum8 (((s.bufAppend b).content.drop 1).take (s.len + 1 - 3)) := by
  rw [chk, length_content, bufAppend_len]

/-- Below the guard an outcome that keeps the byte is one append and the `OK` (R104, R106, R125). -/
theorem exec_process_of_kept (hne : s.len ≠ s.capacity + 1) (h : s.processOutcome b = o) (hnoise : o ≠ .noise)
    (hdispatch : o ≠ .dispatch) : exec (.process b) s = .next ((s.bufAppend b).respond .ok) := by
  rw [exec_process, processByte_of_kept h hnoise hdispatch, accept_of_ne b hne]

end

/-- Settles O34: the terminator is tested first, and each of the two rejects leaves the state the append left. -/
theorem processRejectLeavesBuffer : Obligations.ProcessRejectLeavesBuffer := by
  intro s b hne h7 f hL hbad
  rw [← expected_bufAppend_eq h7] at hL
  rw [← chk_content_bufAppend] at hbad
  have hjudged := processOutcome_of_expected hne h7 hL
  by_cases hterm : b ≠ 0x0D
  · have hout := hjudged.trans (if_pos hterm)
    exact ⟨exec_process_of_kept hne hout nofun nofun, hout.trans (if_pos hterm).symm⟩
  · have hout := (hjudged.trans (if_neg hterm)).trans (if_pos (hbad.resolve_left hterm))
    exact ⟨exec_process_of_kept hne hout nofun nofun, hout.trans (if_neg hterm).symm⟩

/-- Settles O35: both tests pass, so the content after the append is delivered, and then the buffer is reset. -/
theorem processDispatchesValidFrame : Obligations.ProcessDispatchesValidFrame := by
  intro s b hne h7 f hL hterm hsum
  rw [← expected_bufAppend_eq h7] at hL
  rw [← chk_content_bufAppend] at hsum
  have hout := ((processOutcome_of_expected hne h7 hL).trans (if_neg (not_not.mpr hterm))).trans
    (if_neg (not_not.mpr hsum))
  refine ⟨?_, hout⟩
  rw [exec_process, processByte_of_dispatch hout, accept_of_ne b hne]
  exact congrArg _ (state_ext rfl rfl rfl rfl rfl (List.append_assoc s.trace _ [okEvent]))

end Sys2Proof.Proofs

namespace Sys2Proof.Proofs

open Sys2Proof.Machine Sys2Proof.Laws

/-! ### FRAME events of an observation (R174) -/

theorem framesOf_append (tr tr' : List Event) : framesOf (tr ++ tr') = framesOf tr ++ framesOf tr' :=
  List.filterMap_append

@[simp] theorem framesOf_response (r : Response) : framesOf [.response r] = [] := rfl

@[simp] theorem framesOf_frame (h : Handler) (f : List Byte) (L : Nat) : framesOf [.frame h f L] = [(f, L)] := rfl

/-- Answers alone add no FRAME event. -/
@[simp] theorem framesOf_replicate_okEvent (n : Nat) : framesOf (List.replicate n okEvent) = [] :=
  List.filterMap_replicate_of_none rfl

@[simp] theorem framesOf_respond (s : State) (r : Response) : framesOf (s.respond r).trace = framesOf s.trace := by
  rw [respond_trace, framesOf_append, framesOf_response, List.append_nil]

/-! ### What one `PROCESS` leaves, by its outcome (R107, R144) -/

section
variable {s : State} {b : Byte}

/-- The three ways of `PROCESS`, told by the outcome. -/
theorem processByte_outcome_cases (s : State) (b : Byte) :
    (s.processOutcome b = .noise ∧ s.isNoise b = true ∧ s.processByte b = s) ∨
    (s.processOutcome b = .dispatch ∧ ValidFrame (s.accept b).content ∧ s.processByte b = (s.accept b).dispatchFrame) ∨
    (s.processOutcome b ≠ .noise ∧ s.processOutcome b ≠ .dispatch ∧ s.processByte b = s.accept b) := by
  by_cases hnoise : s.processOutcome b = .noise
  · have h := processOutcome_eq_noise_iff.mp hnoise
    exact .inl ⟨hnoise, h, processByte_of_noise h⟩
  · by_cases hdispatch : s.processOutcome b = .dispatch
    · exact .inr (.inl ⟨hdispatch, completesWith_accept hdispatch nofun, processByte_of_dispatch hdispatch⟩)
    · exact .inr (.inr ⟨hnoise, hdispatch, processByte_of_kept rfl hnoise hdispatch⟩)

theorem framesOf_processByte (s : State) (b : Byte) :
    framesOf (s.processByte b).trace = framesOf s.trace ++
      (if s.processOutcome b = .dispatch then [((s.accept b).content, (s.accept b).len)] else []) := by
  rw [processByte_trace, framesOf_append]
  split <;> rfl

/-- A dispatch happens on the terminator, below the guard, with at least six bytes held (R66, R144). -/
theorem dispatch_requires (hvalid : ValidFrame (s.accept b).content) :
    b = TERM ∧ (s.accept b).len = s.len + 1 ∧ 6 ≤ s.len := by
  obtain ⟨hmin, -, hterm, -⟩ := hvalid
  rw [length_content] at hmin hterm
  obtain ⟨-, happend⟩ := accept_of_seven_le hmin
  rw [happend] at hmin hterm ⊢
  rw [byteAt_content (Nat.sub_lt (Nat.succ_pos _) one_pos), bufAppend_len, Nat.add_sub_cancel,
    bufGet_bufAppend_last] at hterm
  exact ⟨hterm, rfl, Nat.le_of_succ_le_succ hmin⟩

theorem accept_len_eq_one_or_succ (s : State) (b : Byte) : (s.accept b).len = 1 ∨ (s.accept b).len = s.len + 1 := by
  rw [accept_len]
  split
  · exact .inl rfl
  · exact .inr rfl

theorem processByte_len_eq_zero_iff :
    (s.processByte b).len = 0 ↔ s.processOutcome b = .noise ∨ s.processOutcome b = .dispatch := by
  obtain ⟨ho, hnoise, h⟩ | ⟨ho, -, h⟩ | ⟨hnoise, hdispatch, h⟩ := processByte_outcome_cases s b
  · obtain ⟨hempty, -⟩ := isNoise_iff.mp hnoise
    simp [h, ho, hempty]
  · simp [h, ho]
  · simp [h, hnoise, hdispatch, (accept_len_pos s b).ne']

theorem processByte_len_cases (s : State) (b : Byte) :
    (s.processByte b).len = 0 ∨ (s.processByte b).len = 1 ∨ (s.processByte b).len = s.len ∨
      (s.processByte b).len = s.len + 1 := by
  obtain ⟨-, -, h⟩ | ⟨-, -, h⟩ | ⟨-, -, h⟩ := processByte_outcome_cases s b
  · exact .inr (.inr (.inl (by rw [h])))
  · exact .inl (by rw [h, dispatchFrame_len])
  · rw [h]
    obtain hone | hsucc := accept_len_eq_one_or_succ s b
    · exact .inr (.inl hone)
    · exact .inr (.inr (.inr hsucc))

/-- An accepted byte is stored in `slot(len)` of the state the guard leaves, a dispatched one too (R103, R126). -/
theorem processByte_mem (haccept : s.isNoise b = false) :
    (s.processByte b).mem = s.mem.write (s.capacityGuard.slot s.capacityGuard.len) b := by
  rw [← capacityGuard_mem s]
  obtain ⟨-, hnoise, -⟩ | ⟨-, -, h⟩ | ⟨-, -, h⟩ := processByte_outcome_cases s b
  · exact absurd (haccept.symm.trans hnoise) Bool.false_ne_true
  · rw [h]
    rfl
  · rw [h]
    rfl

end

/-- Settles O38: the outcome tells the way of `PROCESS`, and each fact is read off it. -/
theorem smallFactsAboutOneProcess : Obligations.SmallFactsAboutOneProcess := by
  intro s t b _ h
  rw [exec_process] at h
  cases h
  rw [framesOf_respond, framesOf_processByte]
  refine ⟨fun hframes => ?_, fun f L hframes => ?_, processByte_len_eq_zero_iff, processByte_len_cases s b,
    fun a ha => ?_, fun ho => ?_⟩
  · split at hframes
    case isTrue ho =>
      obtain ⟨hterm, -, -⟩ := dispatch_requires (completesWith_accept ho nofun)
      exact hterm
    case isFalse => exact absurd (List.append_nil _) hframes
  · have hadded := List.append_cancel_left hframes
    split at hadded
    case isTrue ho =>
      obtain ⟨-, hlen, h6⟩ := dispatch_requires (completesWith_accept ho nofun)
      cases hadded
      exact ⟨hlen, h6⟩
    case isFalse => cases hadded
  · rw [respond_mem]
    cases hnoise : s.isNoise b with
    | true => rw [processByte_of_noise hnoise]
    | false => rw [processByte_mem hnoise, read_write_other _ b ha]
  · rw [processByte_of_noise (processOutcome_eq_noise_iff.mp ho), respond_mem]

/-- Settles O47: `framesOf` grows by the dispatched frame or not at all, and the dispatch resets the buffer. -/
theorem atMostOneDispatchPerProcess : Obligations.AtMostOneDispatchPerProcess := by
  intro s t b h
  rw [exec_process] at h
  cases h
  rw [framesOf_respond, framesOf_processByte]
  by_cases ho : s.processOutcome b = .dispatch
  · have hlen : (s.processByte b).len = 0 := processByte_len_eq_zero_iff.mpr (.inr ho)
    rw [if_pos ho]
    exact .inr ⟨_, _, rfl, hlen, content_of_len_eq_zero hlen⟩
  · rw [if_neg ho]
    exact .inl (List.append_nil _)

/-- Settles O46: from an empty buffer any other byte is noise, and at the guard length the byte meets a reset buffer, untested. -/
theorem syncTestedOnlyOnEmptyEntry : Obligations.SyncTestedOnlyOnEmptyEntry := by
  intro s t b h
  rw [exec_process] at h
  cases h
  refine ⟨fun hempty hlen => ?_, fun hfull => ?_⟩
  · by_contra hb
    rw [respond_len, processByte_of_noise (isNoise_iff.mpr ⟨hempty, hb⟩), hempty] at hlen
    cases hlen
  · obtain ⟨-, hprocess⟩ := processByte_of_full b hfull
    rw [hprocess]
    exact ⟨rfl, bufGet_bufAppend_last s.bufReset b⟩

/-! ### FRAME events along a run (R127, R142) -/

theorem validFrame_length_le {f : List Byte} (hf : ValidFrame f) : f.length ≤ MAX_L := by
  obtain ⟨-, hlen, -, -⟩ := hf
  rw [hlen]
  exact Nat.add_le_add_right (Nat.le_of_lt_succ (byteAt f PSIZE_OFF).isLt) 7

/-- A dispatch of a valid content in a legal state is a valid FRAME event; no other operation gives one (R127). -/
theorem keptByOperations_inv_framesValid : KeptByOperations fun s => s.Inv ∧ s.FramesValid where
  takeCommand hs := hs
  respond := by
    rintro s r ⟨hinv, hframes⟩
    refine ⟨hinv, fun h f L hmem => hframes h f L ?_⟩
    rw [respond_trace, List.mem_append, List.mem_singleton] at hmem
    exact hmem.resolve_right nofun
  bufReset := fun ⟨hinv, hframes⟩ => ⟨inv_bufReset hinv, hframes⟩
  bufAppend b := fun ⟨hinv, hframes⟩ hguard => ⟨inv_bufAppend b hinv hguard, hframes⟩
  dispatchFrame := by
    rintro s ⟨hinv, hframes⟩ hvalid
    refine ⟨inv_bufReset hinv, fun h f L hmem => ?_⟩
    rw [dispatchFrame_trace, List.mem_append, List.mem_singleton] at hmem
    obtain hold | hnew := hmem
    · exact hframes h f L hold
    · cases hnew
      obtain ⟨-, -, -, hlen⟩ := hinv
      exact ⟨rfl, length_content s, hvalid, le_min (length_content s ▸ validFrame_length_le hvalid) hlen⟩

theorem framesValid_powerOn (cfg : Config) (mem : Memory) (ws : List CommandWord) :
    (State.powerOn cfg mem ws).FramesValid := fun _ _ _ hmem => absurd hmem List.not_mem_nil

theorem reachable_framesValid {s : State} (hs : Reachable s) : s.FramesValid := by
  obtain ⟨-, hframes⟩ := keptByOperations_inv_framesValid.of_reachable
    (fun cfg mem ws hwf hwithin => ⟨inv_powerOn ws hwf hwithin, framesValid_powerOn cfg mem ws⟩) hs
  exact hframes

/-- Settles O44: `FramesValid` holds of every reachable state, here with the parts of `ValidFrame` written out. -/
theorem everyFrameOfEveryRunIsValid : Obligations.EveryFrameOfEveryRunIsValid := by
  intro s h f L hs hmem
  obtain ⟨hhandler, rfl, ⟨hmin, hlen, hterm, hchk⟩, hmax⟩ := reachable_framesValid hs h f L hmem
  exact ⟨hhandler, rfl, hlen, hchk, hterm, hmin, hmax⟩

end Sys2Proof.Proofs

namespace Sys2Proof.Proofs

open Sys2Proof.Machine Sys2Proof.Laws

/-! ### A stream of bytes (R76) -/

/-- The state after a stream: each byte processed and answered, in order. -/
def afterFeed (bs : List Byte) (s : State) : State := bs.foldl (fun u b => (u.processByte b).respond .ok) s

theorem KeptByOperations.of_afterFeed {P : State → Prop} (hP : KeptByOperations P) (bs : List Byte) {s : State}
    (hs : P s) : P (afterFeed bs s) :=
  List.foldlRecOn bs _ hs fun _ hu b _ => hP.respond _ (hP.of_processByte b hu)

theorem keptByOperations_cfg (c : Config) : KeptByOperations fun s => s.cfg = c where
  takeCommand hs := hs
  respond _ hs := hs
  bufReset hs := hs
  bufAppend _ hs _ := hs
  dispatchFrame hs _ := hs

section
variable {s : State} {b : Byte}

@[simp] theorem afterFeed_nil (s : State) : afterFeed [] s = s := rfl

@[simp] theorem afterFeed_cons (b : Byte) (bs : List Byte) (s : State) :
    afterFeed (b :: bs) s = afterFeed bs ((s.processByte b).respond .ok) := rfl

theorem afterFeed_append (bs cs : List Byte) (s : State) : afterFeed (bs ++ cs) s = afterFeed cs (afterFeed bs s) :=
  List.foldl_append

/-- `afterFeed` is the run of `FEED` (R76). -/
theorem runCommands_feed (bs : List Byte) (s : State) : runCommands (feed bs) s = .next (afterFeed bs s) := by
  induction bs generalizing s with
  | nil => rfl
  | cons b bs ih => rw [feed_cons, runCommands_cons _ (exec_process b s), ih, afterFeed_cons]

@[simp] theorem afterFeed_cfg (bs : List Byte) (s : State) : (afterFeed bs s).cfg = s.cfg :=
  (keptByOperations_cfg s.cfg).of_afterFeed bs rfl

@[simp] theorem capacity_afterFeed (bs : List Byte) (s : State) : (afterFeed bs s).capacity = s.capacity :=
  congrArg Config.capacity (afterFeed_cfg bs s)

/-- The answers of one more byte. -/
theorem append_replicate_okEvent (tr : List Event) (n : Nat) :
    tr ++ List.replicate n okEvent ++ [okEvent] = tr ++ List.replicate (n + 1) okEvent := by
  rw [List.append_assoc, ← List.replicate_succ']

/-! ### Noise between frames (R140) -/

theorem afterFeed_of_noise (bs : List Byte) (hempty : s.len = 0) (hbs : 0x0C ∉ bs) :
    afterFeed bs s = { s with trace := s.trace ++ List.replicate bs.length okEvent } := by
  induction bs generalizing s with
  | nil => exact state_ext rfl rfl rfl rfl rfl (List.append_nil s.trace).symm
  | cons b bs ih =>
    have hb : b ≠ SYNC := (List.ne_of_not_mem_cons hbs).symm
    rw [afterFeed_cons, processByte_of_noise (isNoise_iff.mpr ⟨hempty, hb⟩),
      ih (s := s.respond .ok) hempty (List.not_mem_of_not_mem_cons hbs)]
    exact state_ext rfl rfl rfl rfl rfl (List.append_assoc s.trace [okEvent] _)

end

/-- Settles O45: noise is dropped byte by byte, and a byte that meets a non-empty buffer is no noise. -/
theorem idleNoise : Obligations.IdleNoise := by
  refine ⟨fun bs s hempty hbs => ?_, fun s t b hlen h => ?_⟩
  · rw [runCommands_feed, afterFeed_of_noise bs hempty hbs]
  · rw [exec_process] at h
    cases h
    rw [respond_mem, processByte_mem (isNoise_of_len_pos (Nat.pos_of_ne_zero hlen)), read_write_same]

/-! ### A frame on its way into the buffer (R145) -/

theorem byteAt_eq_getElem {f : List Byte} {i : Nat} (hi : i < f.length) : byteAt f i = f[i] :=
  List.getD_eq_getElem f 0 hi

theorem take_succ_eq_byteAt {f : List Byte} {k : Nat} (hk : k < f.length) :
    f.take (k + 1) = f.take k ++ [byteAt f k] := by
  rw [List.take_succ_eq_append_getElem hk, byteAt_eq_getElem hk]

theorem afterFeed_take_succ {f : List Byte} {k : Nat} (hk : k < f.length) (s : State) :
    afterFeed (f.take (k + 1)) s = ((afterFeed (f.take k) s).processByte (byteAt f k)).respond .ok := by
  rw [take_succ_eq_byteAt hk, afterFeed_append, afterFeed_cons, afterFeed_nil]

section
variable {s t : State} {f : List Byte} {k : Nat}

/-- From the fifth byte on, the buffer declares the length of the frame it holds a part of (R62, R105). -/
theorem expected_of_content_take (hf : WellFormedFrame f) (h4 : 4 < k) (hk : k ≤ f.length)
    (ht : t.content = f.take k) : t.expected = f.length := by
  have hlen : t.len = k := by rw [← length_content, ht, List.length_take_of_le hk]
  have hdeclared : t.bufGet 4 = byteAt f 4 := by
    rw [← byteAt_content (by omega), ht, byteAt_eq_getElem (by rwa [List.length_take_of_le hk]), List.getElem_take,
      byteAt_eq_getElem (by omega)]
  rw [State.expected, PSIZE_OFF, hdeclared, length_of_wellFormedFrame hf]
  rfl

/-- Every byte of a well-formed frame but its last is appended and nothing else happens, at `len = C` too (R104, R106, R145). -/
theorem processByte_of_content_take (hf : WellFormedFrame f) (hk : k + 1 < f.length) (hroom : k ≤ t.capacity)
    (ht : t.content = f.take k) : t.processByte (byteAt f k) = t.bufAppend (byteAt f k) := by
  have hlen : t.len = k := by rw [← length_content, ht, List.length_take_of_le (by omega)]
  have hne : t.len ≠ t.capacity + 1 := by omega
  by_cases h7 : k + 1 < 7
  · have haccept : t.isNoise (byteAt f k) = false := by
      obtain ⟨-, hsync⟩ := hf
      refine isNoise_eq_false_iff.mpr ?_
      obtain rfl | hpos := Nat.eq_zero_or_pos k
      · exact .inr hsync
      · exact .inl (by omega)
    obtain ⟨-, hprocess⟩ := processByte_of_short haccept hne (by omega)
    exact hprocess
  · have hexp : (t.bufAppend (byteAt f k)).expected = f.length :=
      (expected_bufAppend (by omega) (by omega)).trans (expected_of_content_take hf (by omega) (by omega) ht)
    obtain ⟨-, hprocess⟩ := processByte_of_incomplete (b := byteAt f k) hne (by omega) (by omega)
    exact hprocess

/-- A proper part of a frame that fits is the content, and its bytes are answered and nothing more (R145). -/
theorem afterFeed_take (hempty : s.len = 0) (hf : WellFormedFrame f) (hk : k < f.length) (hroom : k ≤ s.capacity) :
    (afterFeed (f.take k) s).content = f.take k ∧
      (afterFeed (f.take k) s).trace = s.trace ++ List.replicate k okEvent := by
  induction k with
  | zero => exact ⟨content_of_len_eq_zero hempty, (List.append_nil s.trace).symm⟩
  | succ k ih =>
    obtain ⟨hcontent, htrace⟩ := ih (by omega) (by omega)
    have hlen : (afterFeed (f.take k) s).len = k := by
      rw [← length_content, hcontent, List.length_take_of_le (by omega)]
    rw [afterFeed_take_succ (by omega), processByte_of_content_take hf hk (by rw [capacity_afterFeed]; omega) hcontent]
    refine ⟨?_, ?_⟩
    · rw [content_respond, content_bufAppend _ (by rw [capacity_afterFeed]; omega), hcontent,
        take_succ_eq_byteAt (by omega)]
    · rw [respond_trace, bufAppend_trace, htrace]
      exact append_replicate_okEvent s.trace k

theorem afterFeed_take_len (hempty : s.len = 0) (hf : WellFormedFrame f) (hk : k < f.length) (hroom : k ≤ s.capacity) :
    (afterFeed (f.take k) s).len = k := by
  obtain ⟨hcontent, -⟩ := afterFeed_take hempty hf hk hroom
  rw [← length_content, hcontent, List.length_take_of_le hk.le]

/-- The last byte of a frame of at most `C + 1` bytes delivers what the buffer then holds, if that is valid (R126, R145). -/
theorem afterFeed_of_last {g : List Byte} (hempty : s.len = 0) (hf : WellFormedFrame f) (hk : k + 1 = f.length)
    (hroom : k ≤ s.capacity) (hg : ((afterFeed (f.take k) s).bufAppend (byteAt f k)).content = g)
    (hvalid : ValidFrame g) :
    (afterFeed f s).len = 0 ∧ (afterFeed f s).trace =
      s.trace ++ List.replicate k okEvent ++ [.frame s.cfg.handler g f.length, okEvent] := by
  have hlen := afterFeed_take_len hempty hf (by omega) hroom
  obtain ⟨-, htrace⟩ := afterFeed_take hempty hf (by omega) hroom
  have hfeed : afterFeed f s = ((afterFeed (f.take k) s).processByte (byteAt f k)).respond .ok := by
    rw [← afterFeed_take_succ (by omega), hk, List.take_length]
  have haccept := accept_of_ne (byteAt f k) (s := afterFeed (f.take k) s)
    (by rw [hlen, capacity_afterFeed]; omega)
  have h7 : 7 ≤ f.length := by rw [length_of_wellFormedFrame hf]; omega
  subst hg
  rw [← haccept] at hvalid
  rw [hfeed, processByte_of_validFrame (isNoise_of_len_pos (by omega)) hvalid, haccept]
  refine ⟨rfl, ?_⟩
  rw [respond_trace, dispatchFrame_trace, bufAppend_trace, htrace, bufAppend_cfg, afterFeed_cfg, bufAppend_len, hlen,
    hk, List.append_assoc]
  rfl

/-- A well-formed frame that fits is delivered on its last byte (R145 (a)). -/
theorem afterFeed_frame (hempty : s.len = 0) (hf : WellFormedFrame f) (hroom : f.length ≤ s.capacity) :
    (afterFeed f s).len = 0 ∧ (afterFeed f s).trace =
      s.trace ++ List.replicate (f.length - 1) okEvent ++ [.frame s.cfg.handler f f.length, okEvent] := by
  have hlength := length_of_wellFormedFrame hf
  have hk : f.length - 1 + 1 = f.length := by omega
  obtain ⟨hcontent, -⟩ := afterFeed_take (k := f.length - 1) hempty hf (by omega) (by omega)
  have hlen := afterFeed_take_len (k := f.length - 1) hempty hf (by omega) (by omega)
  refine afterFeed_of_last hempty hf hk (by omega) ?_ hf.left
  rw [content_bufAppend _ (by rw [hlen, capacity_afterFeed]; omega), hcontent, ← take_succ_eq_byteAt (by omega), hk,
    List.take_length]

/-- Validity does not look at offset 0 (R66). -/
theorem validFrame_set_zero (b : Byte) (hf : ValidFrame f) : ValidFrame (f.set 0 b) := by
  cases f with
  | nil => exact hf
  | cons a g =>
    obtain ⟨hmin, hlen, hterm, hchk⟩ := hf
    have h7 : 7 ≤ g.length + 1 := hmin
    have hbyte : ∀ i, 0 < i → byteAt (b :: g) i = byteAt (a :: g) i
      | i + 1, _ => rfl
    refine ⟨hmin, hlen, ?_, ?_⟩
    · rw [List.set_cons_zero, List.length_cons, hbyte _ (by omega)]
      exact hterm
    · rw [List.set_cons_zero, List.length_cons, hbyte _ (by omega)]
      exact hchk

/-- A well-formed frame of `C + 1` bytes is delivered with its terminator also at index 0 (R145 (b)). -/
theorem afterFeed_frame_aliased (hempty : s.len = 0) (hf : WellFormedFrame f) (hfull : f.length = s.capacity + 1) :
    (afterFeed f s).len = 0 ∧ (afterFeed f s).trace =
      s.trace ++ List.replicate s.capacity okEvent ++ [.frame s.cfg.handler (f.set 0 TERM) f.length, okEvent] := by
  have hk : s.capacity < f.length := by omega
  obtain ⟨hcontent, -⟩ := afterFeed_take hempty hf hk le_rfl
  have hlen := afterFeed_take_len hempty hf hk le_rfl
  obtain ⟨-, -, hterm, -⟩ := hf.left
  rw [hfull, Nat.add_sub_cancel] at hterm
  refine afterFeed_of_last hempty hf hfull.symm le_rfl ?_ (validFrame_set_zero TERM hf.left)
  rw [content_bufAppend_full _ (by rw [hlen, capacity_afterFeed]), hcontent, ← take_succ_eq_byteAt hk, ← hfull,
    List.take_length, hterm]

/-- Of a longer frame, byte `C + 2` fires the guard and begins a new candidate (R102, R145 (c)). -/
theorem afterFeed_take_past_guard (hempty : s.len = 0) (hf : WellFormedFrame f) (hlong : s.capacity + 2 ≤ f.length) :
    (afterFeed (f.take (s.capacity + 2)) s).trace = s.trace ++ List.replicate (s.capacity + 2) okEvent ∧
      (afterFeed (f.take (s.capacity + 2)) s).content = [byteAt f (s.capacity + 1)] := by
  obtain ⟨hcontent, htrace⟩ := afterFeed_take (k := s.capacity) hempty hf (by omega) le_rfl
  have hlen := afterFeed_take_len (k := s.capacity) hempty hf (by omega) le_rfl
  have hguard : afterFeed (f.take (s.capacity + 1)) s =
      ((afterFeed (f.take s.capacity) s).bufAppend (byteAt f s.capacity)).respond .ok := by
    rw [afterFeed_take_succ (by omega), processByte_of_content_take hf hlong (by rw [capacity_afterFeed]) hcontent]
  have hfull : (afterFeed (f.take (s.capacity + 1)) s).len = (afterFeed (f.take (s.capacity + 1)) s).capacity + 1 := by
    rw [capacity_afterFeed, hguard, respond_len, bufAppend_len, hlen]
  obtain ⟨-, hprocess⟩ := processByte_of_full (byteAt f (s.capacity + 1)) hfull
  rw [afterFeed_take_succ hlong, hprocess, content_respond, content_bufAppend _ (capacity_pos _), content_bufReset]
  refine ⟨?_, rfl⟩
  rw [respond_trace, bufAppend_trace, bufReset_trace, hguard, respond_trace, bufAppend_trace, htrace]
  exact (congrArg (· ++ [okEvent]) (append_replicate_okEvent _ _)).trans (append_replicate_okEvent _ _)

end

/-! ### What a stream delivers fits the buffer (R127) -/

/-- Since the observation was `tr`, every frame given was the content of the buffer, so no longer than `C + 1`. -/
def DeliveredFits (tr : List Event) (s : State) : Prop :=
  s.len ≤ s.capacity + 1 ∧
    ∃ added, framesOf s.trace = framesOf tr ++ added ∧ ∀ p ∈ added, p.1.length ≤ s.capacity + 1

theorem keptByOperations_deliveredFits (tr : List Event) : KeptByOperations (DeliveredFits tr) where
  takeCommand hs := hs
  respond := by
    rintro s r ⟨hlen, added, hframes, hfit⟩
    exact ⟨hlen, added, (framesOf_respond s r).trans hframes, hfit⟩
  bufReset := fun ⟨_, hadded⟩ => ⟨Nat.zero_le _, hadded⟩
  bufAppend _ := fun ⟨hlen, hadded⟩ hguard => ⟨Nat.lt_of_le_of_ne hlen hguard, hadded⟩
  dispatchFrame := by
    rintro s ⟨hlen, added, hframes, hfit⟩ -
    refine ⟨Nat.zero_le _, added ++ [(s.content, s.len)], ?_, fun p hp => ?_⟩
    · rw [dispatchFrame_trace, framesOf_append, hframes, framesOf_frame, List.append_assoc]
    · obtain hold | hnew := List.mem_append.mp hp
      · exact hfit p hold
      · rw [List.mem_singleton.mp hnew, length_content]
        exact hlen

theorem exists_added_afterFeed (bs : List Byte) {s : State} (hlen : s.len ≤ s.capacity + 1) :
    ∃ added, framesOf (afterFeed bs s).trace = framesOf s.trace ++ added ∧
      ∀ p ∈ added, p.1.length ≤ s.capacity + 1 := by
  obtain ⟨-, added, hframes, hfit⟩ := (keptByOperations_deliveredFits s.trace).of_afterFeed bs (s := s)
    ⟨hlen, [], (List.append_nil _).symm, nofun⟩
  rw [capacity_afterFeed] at hfit
  exact ⟨added, hframes, hfit⟩

/-- Settles O48: the three lengths end in a dispatch, in a dispatch of the aliased frame, and past the guard; a frame longer than
`C + 1` is never the content, so it is never delivered. -/
theorem cleanFrameAcceptance : Obligations.CleanFrameAcceptance := by
  refine fun s f hempty _ hf => ⟨fun hroom => ?_, fun hfull => ?_, fun hlong => ?_⟩
  · exact ⟨_, runCommands_feed f s, afterFeed_frame hempty hf hroom⟩
  · rw [hfull, Nat.add_sub_cancel, ← hfull]
    exact ⟨_, runCommands_feed f s, afterFeed_frame_aliased hempty hf hfull⟩
  · obtain ⟨htrace, hcontent⟩ := afterFeed_take_past_guard hempty hf hlong
    obtain ⟨added, hframes, hfit⟩ := exists_added_afterFeed f (s := s) (by omega)
    refine ⟨_, runCommands_feed _ s, htrace, hcontent, _, added, runCommands_feed f s, hframes, fun p hp heq => ?_⟩
    have hle := hfit p hp
    rw [heq] at hle
    omega

/-! ### Frames one after another (R146) -/

section
variable {s : State}

/-- One item of a stream: noise is dropped, then the frame is delivered (R140, R145). -/
theorem afterFeed_noise_frame {noise f : List Byte} (hempty : s.len = 0) (hnoise : 0x0C ∉ noise)
    (hf : WellFormedFrame f) (hroom : f.length ≤ s.capacity) :
    (afterFeed (noise ++ f) s).len = 0 ∧
      framesOf (afterFeed (noise ++ f) s).trace = framesOf s.trace ++ [(f, f.length)] := by
  rw [afterFeed_append, afterFeed_of_noise noise hempty hnoise]
  obtain ⟨hlen, htrace⟩ := afterFeed_frame
    (s := { s with trace := s.trace ++ List.replicate noise.length okEvent }) hempty hf hroom
  refine ⟨hlen, ?_⟩
  rw [htrace]
  simp only [framesOf_append, framesOf_replicate_okEvent, List.append_nil]
  rfl

theorem afterFeed_items (items : List (List Byte × List Byte)) (hempty : s.len = 0)
    (hitems : ∀ p ∈ items, 0x0C ∉ p.1 ∧ WellFormedFrame p.2 ∧ p.2.length ≤ s.capacity) :
    (afterFeed (items.flatMap fun p => p.1 ++ p.2) s).len = 0 ∧
      framesOf (afterFeed (items.flatMap fun p => p.1 ++ p.2) s).trace =
        framesOf s.trace ++ items.map fun p => (p.2, p.2.length) := by
  induction items generalizing s with
  | nil => exact ⟨hempty, (List.append_nil _).symm⟩
  | cons p items ih =>
    obtain ⟨⟨hnoise, hf, hroom⟩, hrest⟩ := List.forall_mem_cons.mp hitems
    obtain ⟨hlen, hframes⟩ := afterFeed_noise_frame hempty hnoise hf hroom
    obtain ⟨hlen', hframes'⟩ := ih hlen (by simpa only [capacity_afterFeed] using hrest)
    rw [List.flatMap_cons, afterFeed_append]
    refine ⟨hlen', ?_⟩
    rw [hframes', hframes, List.append_assoc, List.singleton_append, List.map_cons]

end

/-- Settles O49: item by item, then the trailing noise. -/
theorem backToBackFrames : Obligations.BackToBackFrames := by
  intro s items tail hempty _ hitems htail
  obtain ⟨hlen, hframes⟩ := afterFeed_items items hempty hitems
  refine ⟨_, runCommands_feed _ s, ?_⟩
  rw [afterFeed_append, afterFeed_of_noise tail hlen htail]
  refine ⟨hlen, ?_⟩
  rw [framesOf_append, framesOf_replicate_okEvent, List.append_nil, hframes]

/-! ### After a reject (R148) -/

section
variable {s : State} {b : Byte}

/-- A stale candidate takes every byte: its declared length is behind it and stays there (R106, R148). -/
theorem processByte_of_stale (h7 : 7 ≤ s.len) (hL : s.expected ≤ s.len) (hroom : s.len ≤ s.capacity) :
    s.processOutcome b = .acc ∧ s.processByte b = s.bufAppend b := by
  have hexp : (s.bufAppend b).expected = s.expected := expected_bufAppend (by omega) hroom
  exact processByte_of_incomplete (by omega) (by omega) (by omega)

theorem afterFeed_of_stale (bs : List Byte) (h7 : 7 ≤ s.len) (hL : s.expected ≤ s.len)
    (hroom : s.len + bs.length ≤ s.capacity + 1) :
    (afterFeed bs s).len = s.len + bs.length ∧ (afterFeed bs s).expected = s.expected ∧
      (afterFeed bs s).trace = s.trace ++ List.replicate bs.length okEvent := by
  induction bs generalizing s with
  | nil => exact ⟨rfl, rfl, (List.append_nil _).symm⟩
  | cons b bs ih =>
    rw [List.length_cons] at hroom ⊢
    have hexp : (s.bufAppend b).expected = s.expected := expected_bufAppend (by omega) (by omega)
    obtain ⟨-, hprocess⟩ := processByte_of_stale (b := b) h7 hL (by omega)
    obtain ⟨hlen, hexp', htrace⟩ := ih (s := (s.bufAppend b).respond .ok)
      (by rw [respond_len, bufAppend_len]; omega)
      (by rw [expected_respond, hexp, respond_len, bufAppend_len]; omega)
      (by rw [respond_len, bufAppend_len, capacity_respond, capacity_bufAppend]; omega)
    rw [afterFeed_cons, hprocess, hlen, hexp', htrace]
    refine ⟨?_, hexp, ?_⟩
    · rw [respond_len, bufAppend_len]
      omega
    · rw [List.replicate_succ]
      exact List.append_assoc s.trace [okEvent] _

/-- A reject leaves a candidate of exactly its declared length (R122, R124, R125). -/
theorem expected_of_reject {t : State} (h : exec (.process b) s = .next t)
    (ho : s.processOutcome b = .badTerm ∨ s.processOutcome b = .badSum) : 7 ≤ t.len ∧ t.len = t.expected := by
  rw [exec_process] at h
  cases h
  obtain hterm | hsum := ho
  · obtain ⟨-, -, h7, hL, -⟩ := completesWith_processByte hterm nofun nofun And.left
    exact ⟨h7, hL⟩
  · obtain ⟨-, -, h7, hL, -⟩ := completesWith_processByte hsum nofun nofun And.left
    exact ⟨h7, hL⟩

end

/-- Settles O52: the rejected candidate is stale until the guard length, and there the next byte meets a reset buffer. -/
theorem rejectedCandidateAbsorbsUntilOverrun : Obligations.RejectedCandidateAbsorbsUntilOverrun := by
  intro s₀ s b₀ bs hinv h ho hbs
  obtain ⟨-, -, -, hbound⟩ := keptByOperations_inv.of_exec hinv h
  obtain ⟨h7, hL⟩ := expected_of_reject h ho
  refine ⟨fun k hk => ?_, _, runCommands_feed bs s, ?_⟩
  · have htake : (bs.take k).length = k := List.length_take_of_le hk.le
    obtain ⟨hlen, hexp, -⟩ := afterFeed_of_stale (bs.take k) h7 hL.ge (by omega)
    rw [htake] at hlen
    obtain ⟨hacc, -⟩ := processByte_of_stale (s := afterFeed (bs.take k) s) (b := byteAt bs k) (by omega) (by omega)
      (by rw [capacity_afterFeed]; omega)
    exact ⟨_, runCommands_feed _ s, hlen, hacc⟩
  · obtain ⟨hlen, -, htrace⟩ := afterFeed_of_stale bs h7 hL.ge (by omega)
    have hfull : (afterFeed bs s).len = s.capacity + 1 := by omega
    refine ⟨hfull, htrace, fun b => ⟨_, exec_process b _, ?_, ?_⟩⟩
    · rw [guardFires_iff, capacity_afterFeed, hfull]
    · obtain ⟨-, hprocess⟩ := processByte_of_full b (s := afterFeed bs s) (by rw [capacity_afterFeed, hfull])
      rw [hprocess, content_respond, content_bufAppend b (capacity_pos _), content_bufReset]
      exact ⟨rfl, rfl⟩

end Sys2Proof.Proofs

namespace Sys2Proof.Proofs

open Sys2Proof.Machine Sys2Proof.Laws

/-! ### Contract faults (R171) -/

/-- The command raises this fault in this state (R85, R86). -/
def RaisesFault (i : Instr) (s : State) (f : Fault) : Prop :=
  (f = .indexOutOfRange ∧ ∃ k, i = .get k ∧ s.len ≤ k) ∨
    (f = .appendOverrun ∧ ∃ b, i = .append b ∧ s.capacity < s.len)

section
variable {i : Instr} {s t : State} {f : Fault}

theorem exec_of_raisesFault (h : RaisesFault i s f) : exec i s = .next (s.raise f) := by
  obtain ⟨rfl, k, rfl, hout⟩ | ⟨rfl, b, rfl, hover⟩ := h
  · exact exec_get_outside hout
  · exact exec_append_over b hover

/-- A command that raises no fault answers, last of all, with a response that is no `ERR`. -/
theorem raisesFault_or_exec_answers (i : Instr) (s : State) :
    (∃ f, RaisesFault i s f) ∨
      ∃ (u : State) (r : Response), exec i s = .next (u.respond r) ∧ ∀ f, r ≠ .err f := by
  cases i with
  | process b => exact .inr ⟨_, _, exec_process b s, nofun⟩
  | reset => exact .inr ⟨_, _, exec_reset s, nofun⟩
  | append b =>
    obtain hroom | hover := le_or_gt s.len s.capacity
    · exact .inr ⟨_, _, exec_append_room b hroom, nofun⟩
    · exact .inl ⟨_, .inr ⟨rfl, b, rfl, hover⟩⟩
  | get k =>
    obtain hin | hout := lt_or_ge k s.len
    · exact .inr ⟨_, _, exec_get_inside hin, nofun⟩
    · exact .inl ⟨_, .inl ⟨rfl, k, rfl, hout⟩⟩
  | length => exact .inr ⟨_, _, exec_length s, nofun⟩
  | capacity => exact .inr ⟨_, _, exec_capacity s, nofun⟩

/-- An observation tells the response it ends in. -/
theorem eq_of_respond_trace_eq {u : State} {tr : List Event} {r r' : Response}
    (h : (u.respond r).trace = tr ++ [.response r']) : r = r' := by
  obtain ⟨-, hlast⟩ := List.append_inj' h rfl
  injection hlast with hevent
  injection hevent

theorem trace_eq_err_iff_raisesFault (h : exec i s = .next t) :
    t.trace = s.trace ++ [.response (.err f)] ↔ RaisesFault i s f := by
  constructor
  · intro htrace
    obtain ⟨f', hf'⟩ | ⟨u, r, hanswer, hr⟩ := raisesFault_or_exec_answers i s
    · cases h.symm.trans (exec_of_raisesFault hf')
      cases eq_of_respond_trace_eq htrace
      exact hf'
    · cases h.symm.trans hanswer
      exact absurd (eq_of_respond_trace_eq htrace) (hr f)
  · intro hf
    cases h.symm.trans (exec_of_raisesFault hf)
    rfl

end

/-- Settles O42: the answer tells the fault, and raising a fault adds the answer only; a reserved word is the decoder's own fault. -/
theorem contractFaultChangesNothing : Obligations.ContractFaultChangesNothing := by
  refine ⟨fun i s t f h => ⟨trace_eq_err_iff_raisesFault h, fun htrace => ?_⟩,
    fun s w rest e => step_of_decode_eq_error, by decide⟩
  cases h.symm.trans (exec_of_raisesFault ((trace_eq_err_iff_raisesFault h).mp htrace))
  rfl

end Sys2Proof.Proofs

namespace Sys2Proof.Proofs

open Sys2Proof.Machine Sys2Proof.Laws

/-! ### What every step keeps (R24 to R27, R127) -/

/-- Settles O16: `State.reset` is the hardware reset with an empty storage. -/
theorem legalValuesAtReset : Obligations.LegalValuesAtReset :=
  ⟨inv_powerOn [] wf_nil rfl, fun _ _ ws => inv_powerOn ws⟩

/-- Settles O17: every operation of a step keeps the legal values, an append because it never happens at `len = C + 1`. -/
theorem stepKeepsLegalValues : Obligations.StepKeepsLegalValues :=
  fun _ _ hs h => keptByOperations_inv.of_step hs h

/-- Settles O55: no operation writes `start` but the buffer reset, and then `slot` adds nothing to the index. -/
theorem stepKeepsStartZero : Obligations.StepKeepsStartZero := by
  refine ⟨powerOn_start, fun s t hs h => ?_⟩
  have ht : t.start = 0 := keptByOperations_start_eq_zero.of_step hs h
  exact ⟨ht, slot_of_start_eq_zero ht⟩

/-- Settles O56: the legal values bound the length of a dispatched content, and the dispatch tests the rest. -/
theorem stepKeepsFramesValid : Obligations.StepKeepsFramesValid := by
  refine ⟨framesValid_powerOn, fun s t hinv hframes h => ?_⟩
  obtain ⟨-, ht⟩ := keptByOperations_inv_framesValid.of_step ⟨hinv, hframes⟩ h
  exact ht

/-- An operation adds events at the end of the observation and takes none back (R196). -/
theorem keptByOperations_prefix_trace (tr : List Event) : KeptByOperations fun s => tr <+: s.trace where
  takeCommand hs := hs
  respond _ hs := hs.trans (List.prefix_append _ _)
  bufReset hs := hs
  bufAppend _ hs _ := hs
  dispatchFrame hs _ := hs.trans (List.prefix_append _ _)

/-- Settles O14: no operation writes `cfg`, and each only adds to the observation. -/
theorem stepKeepsCapacityAndObservation : Obligations.StepKeepsCapacityAndObservation := fun s _ h =>
  ⟨(keptByOperations_cfg s.cfg).of_step rfl h,
    (keptByOperations_prefix_trace s.trace).of_step (List.prefix_refl _) h⟩

/-- With a capacity of at most 5 no content is as long as the shortest frame, so no operation gives a FRAME event (R147). -/
theorem keptByOperations_no_dispatch (fs : List (List Byte × Nat)) :
    KeptByOperations fun s => s.capacity ≤ 5 ∧ s.len ≤ s.capacity + 1 ∧ framesOf s.trace = fs where
  takeCommand hs := hs
  respond := by
    rintro s r ⟨hcap, hlen, hframes⟩
    exact ⟨hcap, hlen, (framesOf_respond s r).trans hframes⟩
  bufReset := fun ⟨hcap, _, hframes⟩ => ⟨hcap, Nat.zero_le _, hframes⟩
  bufAppend _ := fun ⟨hcap, hlen, hframes⟩ hguard => ⟨hcap, Nat.lt_of_le_of_ne hlen hguard, hframes⟩
  dispatchFrame := by
    rintro s ⟨hcap, hlen, -⟩ ⟨hmin, -⟩
    have h7 : 7 ≤ s.len := by rwa [length_content] at hmin
    omega

/-- Settles O51: the content never reaches seven bytes. -/
theorem smallCapacityNeverDispatches : Obligations.SmallCapacityNeverDispatches := by
  rintro s bs ⟨-, -, -, hbound⟩ hcap
  obtain ⟨hcap', hlen, hframes⟩ :=
    (keptByOperations_no_dispatch (framesOf s.trace)).of_afterFeed bs (s := s) ⟨hcap, hbound, rfl⟩
  exact ⟨_, runCommands_feed bs s, hframes, hlen.trans (Nat.succ_le_succ hcap')⟩

/-! ### The widths of the registers (R7) -/

theorem bitsFor_le_iff {n w : Nat} : bitsFor n ≤ w ↔ n < 2 ^ w := by
  unfold bitsFor
  split
  case isTrue h => exact iff_of_true (Nat.zero_le w) (h ▸ Nat.two_pow_pos w)
  case isFalse h => exact Nat.log2_lt h

/-- Settles O20: `bitsFor n` is the least width that holds `n`, and the greatest legal values are `C + 1` and `C - 1`. -/
theorem registerWidthsAreLeast : Obligations.RegisterWidthsAreLeast := by
  intro cfg
  have hpos := cfg.capacity_pos
  have hstart : ∀ w, startWidth cfg ≤ w ↔ cfg.capacity ≤ 2 ^ w := fun w => bitsFor_le_iff.trans (by omega)
  exact ⟨⟨bitsFor_le_iff.mp le_rfl, fun w => bitsFor_le_iff.mpr⟩, (hstart _).mp le_rfl, fun w => (hstart w).mpr⟩

/-! ### Taking a command (R196, R197) -/

section
variable {s t : State} {w : CommandWord} {rest : List CommandWord} {i : Instr}

theorem step_of_decode_eq_ok (hpending : s.pending = w :: rest) (hd : decode w = .ok i) :
    step s = exec i s.takeCommand := by
  unfold step State.nextWord
  rw [hpending, List.head?_cons]
  simp only [hd]

theorem takeCommand_of_pending (hpending : s.pending = w :: rest) : s.takeCommand = { s with pending := rest } := by
  rw [State.takeCommand, hpending, List.tail_cons]

theorem step_eq_illegalWord {e : Reserved} (hpending : s.pending = w :: rest) (hd : decode w = .error e) :
    step s = .next s.illegalWord := by
  rw [step_of_decode_eq_error hpending hd, State.illegalWord, takeCommand_of_pending hpending]
  rfl

theorem decode_tableWord_of_decodeTableWord {nbits n : Nat} (h : decodeTableWord nbits n = some i) :
    decode (tableWord nbits n) = .ok i := by
  unfold decodeTableWord at h
  split at h
  case h_1 j hd =>
    cases h
    exact hd
  case h_2 => cases h


theorem processByte_pending (s : State) (b : Byte) : (s.processByte b).pending = s.pending := by
  obtain ⟨-, h⟩ | ⟨-, -, h⟩ | ⟨-, -, h⟩ := processByte_cases s b
  · rw [h]
  · rw [h, dispatchFrame_pending, accept_pending]
  · rw [h, accept_pending]

theorem exec_pending (h : exec i s = .next t) : t.pending = s.pending := by
  obtain ⟨r, rfl⟩ | ⟨-, rfl⟩ | ⟨b, -, -, rfl⟩ | ⟨b, -, rfl⟩ := exec_cases h
  · rfl
  · rfl
  · rfl
  · exact processByte_pending s b

theorem exists_exec_eq_next (i : Instr) (s : State) : ∃ t, exec i s = .next t := by
  obtain ⟨f, hf⟩ | ⟨u, r, hanswer, -⟩ := raisesFault_or_exec_answers i s
  · exact ⟨_, exec_of_raisesFault hf⟩
  · exact ⟨_, hanswer⟩

theorem step_of_pending_eq_nil (h : s.pending = []) : step s = .next s := by
  rw [step, State.nextWord, h, List.head?_nil]

theorem exists_step_eq_next (s : State) : ∃ t, step s = .next t := by
  cases hpending : s.pending with
  | nil => exact ⟨s, step_of_pending_eq_nil hpending⟩
  | cons w rest =>
    cases hd : decode w with
    | ok i =>
      rw [step_of_decode_eq_ok hpending hd]
      exact exists_exec_eq_next i _
    | error e => exact ⟨_, step_of_decode_eq_error hpending hd⟩

/-- What a command adds to the observation: its response, and before the `OK` of a `PROCESS` perhaps one FRAME event (R73, R196). -/
theorem exec_trace_cases (h : exec i s = .next t) :
    (∃ r, t.trace = s.trace ++ [.response r]) ∨
      ∃ b f L, i = .process b ∧ t.trace = s.trace ++ [.frame s.cfg.handler f L, okEvent] := by
  obtain ⟨r, rfl⟩ | ⟨-, rfl⟩ | ⟨b, -, -, rfl⟩ | ⟨b, hi, rfl⟩ := exec_cases h
  · exact .inl ⟨r, rfl⟩
  · exact .inl ⟨.ok, rfl⟩
  · exact .inl ⟨.ok, rfl⟩
  · rw [respond_trace, processByte_trace, List.append_assoc]
    split
    · exact .inr ⟨b, _, _, hi, rfl⟩
    · exact .inl ⟨.ok, rfl⟩

end

/-- Settles O9: the decoder's answer selects the command. -/
theorem stepRunsDecodedCommand : Obligations.StepRunsDecodedCommand := by
  intro s w rest i hpending hd
  rw [step_of_decode_eq_ok hpending hd, takeCommand_of_pending hpending]

/-- Settles O10: there is no word to take. -/
theorem stepWaitsWithNothingPending : Obligations.StepWaitsWithNothingPending :=
  fun _ => step_of_pending_eq_nil

/-- Settles O11: the issued word is the head of what is pending, and taking it gives back the state before. -/
theorem issuedTableWordRunsNext : Obligations.IssuedTableWordRunsNext := fun s nbits n _ h =>
  step_of_decode_eq_ok (issue_pending s (tableWord nbits n)) (decode_tableWord_of_decodeTableWord h)

/-- Settles O12: a command answers or raises its fault, and either is a next state. -/
theorem everyCommandCompletes : Obligations.EveryCommandCompletes := by
  refine ⟨fun i s => ?_, exists_step_eq_next⟩
  obtain ⟨t, h⟩ := exists_exec_eq_next i s
  exact ⟨t, h, exec_pending h⟩

/-- Settles O13: a reserved word is answered by its `ERR`, and a command by what it adds to the observation. -/
theorem oneResponsePerCommandFrameBeforeOk : Obligations.OneResponsePerCommandFrameBeforeOk := by
  intro s w rest hpending
  cases hd : decode w with
  | error e => exact ⟨_, step_of_decode_eq_error hpending hd, rfl, .inl ⟨_, rfl⟩⟩
  | ok i =>
    obtain ⟨t, ht⟩ := exists_exec_eq_next i s.takeCommand
    refine ⟨t, (step_of_decode_eq_ok hpending hd).trans ht, ?_, ?_⟩
    · rw [exec_pending ht, takeCommand_of_pending hpending]
    · obtain hanswer | ⟨b, f, L, rfl, hframe⟩ := exec_trace_cases ht
      · exact .inl hanswer
      · exact .inr ⟨b, f, L, rfl, hframe⟩

/-! ### The data of a response (R73) -/

section
variable {s t : State} {i : Instr} {v : Nat}

/-- A command that answers data answers a byte, `len` or `C` (R86 to R88). -/
theorem exec_data_cases (h : exec i s = .next t) (htrace : t.trace = s.trace ++ [.response (.data v)]) :
    v < 2 ^ 8 ∨ v = s.len ∨ v = s.capacity := by
  have hresponse : ∀ {u : State} {r : Response}, exec i s = .next (u.respond r) → r = .data v := by
    intro u r hu
    cases h.symm.trans hu
    exact eq_of_respond_trace_eq htrace
  cases i with
  | process b => cases hresponse (exec_process b s)
  | reset => cases hresponse (exec_reset s)
  | append b =>
    obtain hroom | hover := le_or_gt s.len s.capacity
    · cases hresponse (exec_append_room b hroom)
    · cases hresponse (exec_append_over b hover)
  | get k =>
    obtain hin | hout := lt_or_ge k s.len
    · cases hresponse (exec_get_inside hin)
      exact .inl (s.bufGet k).isLt
    · cases hresponse (exec_get_outside hout)
  | length =>
    cases hresponse (exec_length s)
    exact .inr (.inl rfl)
  | capacity =>
    cases hresponse (exec_capacity s)
    exact .inr (.inr rfl)

end

/-- Settles O7: a byte, and in a legal state `len` and `C`, are below `2 ^ 13`. -/
theorem responseDataFitsThirteenBits : Obligations.ResponseDataFitsThirteenBits := by
  rintro i s t v ⟨-, -, -, hbound⟩ h htrace
  have hcap := capacity_le s
  obtain hbyte | rfl | rfl := exec_data_cases h htrace <;> omega

/-! ### Frames of the buffer commands (R47, R85 to R89) -/

/-- Settles O24: the two answers, with the fields written out. -/
theorem lengthAndCapacityAnswer : Obligations.LengthAndCapacityAnswer :=
  fun s => ⟨exec_length s, exec_capacity s⟩

/-- A read command answers from the buffer and the configuration, whatever has been observed before (R47). -/
theorem exec_read {i : Instr} (hi : (∃ k, i = .get k) ∨ i = .length ∨ i = .capacity) (s : State) :
    ∃ r, ∀ tr, exec i { s with trace := tr } = .next { s with trace := tr ++ [.response r] } := by
  obtain ⟨k, rfl⟩ | rfl | rfl := hi
  · obtain hin | hout := lt_or_ge k s.len
    · exact ⟨byteData (s.bufGet k), fun tr => exec_get_inside (s := { s with trace := tr }) hin⟩
    · exact ⟨.err .indexOutOfRange, fun tr => exec_get_outside (s := { s with trace := tr }) hout⟩
  · exact ⟨.data s.len, fun tr => exec_length { s with trace := tr }⟩
  · exact ⟨.data s.capacity, fun tr => exec_capacity { s with trace := tr }⟩

/-- Settles O25: `RESET` writes the two registers, and a read command writes nothing. -/
theorem nonStoringCommandsFrame : Obligations.NonStoringCommandsFrame := by
  intro i s t hi h
  obtain rfl | hread := hi
  · cases h
    exact ⟨fun _ => rfl, rfl, rfl, rfl, fun hne => absurd rfl hne, fun _ => ⟨rfl, rfl⟩, .ok, rfl⟩
  · obtain ⟨r, hanswer⟩ := exec_read hread s
    cases h.symm.trans (hanswer s.trace)
    refine ⟨fun _ => rfl, rfl, rfl, rfl, fun _ => ⟨rfl, rfl⟩, ?_, r, rfl⟩
    rintro rfl
    obtain ⟨k, hk⟩ | hk | hk := hread <;> cases hk

/-- Settles O26: one `Memory.write`, or the fault's answer alone. -/
theorem appendFrame : Obligations.AppendFrame := by
  intro b s t h
  obtain hroom | hover := le_or_gt s.len s.capacity
  · cases h.symm.trans (exec_append_room b hroom)
    exact ⟨rfl, rfl, rfl, fun _ => ⟨read_write_same _ _ b, fun _ ha => read_write_other _ b ha⟩,
      fun hover => absurd hroom (not_le.mpr hover)⟩
  · cases h.symm.trans (exec_append_over b hover)
    exact ⟨rfl, rfl, rfl, fun hroom => absurd hroom (not_le.mpr hover), fun _ _ => rfl⟩

/-- Settles O27: a read's answer does not depend on the observation, and a buffer that has just been reset is empty. -/
theorem readsRepeatAndResetIsIdempotent : Obligations.ReadsRepeatAndResetIsIdempotent := by
  refine ⟨fun i s t hi h => ?_, fun s t h => ?_⟩
  · obtain ⟨r, hanswer⟩ := exec_read hi s
    cases h.symm.trans (hanswer s.trace)
    exact ⟨r, rfl, hanswer _⟩
  · cases h
    exact exec_reset _

/-! ### The frame of `PROCESS` (R100 to R103, R126) -/

section
variable {s : State} {b : Byte}

theorem processByte_cfg (s : State) (b : Byte) : (s.processByte b).cfg = s.cfg := by
  obtain ⟨-, h⟩ | ⟨-, -, h⟩ | ⟨-, -, h⟩ := processByte_cases s b
  · rw [h]
  · rw [h, dispatchFrame_cfg, accept_cfg]
  · rw [h, accept_cfg]

theorem accept_start (s : State) (b : Byte) : (s.accept b).start = if s.guardFires then 0 else s.start := by
  unfold State.accept State.capacityGuard
  split <;> rfl

/-- `start` changes only by a buffer reset, that of the guard or that of a dispatch (R102, R126). -/
theorem processByte_start (s : State) (b : Byte) :
    (s.processByte b).start = if s.guardFires ∨ s.processOutcome b = .dispatch then 0 else s.start := by
  obtain ⟨ho, hnoise, h⟩ | ⟨ho, -, h⟩ | ⟨-, ho, h⟩ := processByte_outcome_cases s b
  · obtain ⟨hempty, -⟩ := isNoise_iff.mp hnoise
    have hguard : s.guardFires = false := guardFires_eq_false_iff.mpr (by omega)
    simp [h, ho, hguard]
  · simp [h, ho]
  · simp [h, ho, accept_start]

end

/-- Settles O39: noise leaves the state, and an accepted byte is one `Memory.write`, whatever follows. -/
theorem processFrame : Obligations.ProcessFrame := by
  intro b s t h
  rw [exec_process] at h
  cases h
  simp only [respond_cfg, respond_pending, respond_start, respond_len, respond_mem]
  refine ⟨processByte_cfg s b, processByte_pending s b, fun hnoise => ?_, fun haccept => ?_, processByte_start s b⟩
  · rw [processByte_of_noise (isNoise_iff.mpr hnoise)]
    exact ⟨rfl, rfl, fun _ => rfl⟩
  · rw [processByte_mem (isNoise_eq_false_iff.mpr haccept)]
    exact ⟨read_write_same _ _ b, fun _ ha => read_write_other _ b ha⟩

/-- Settles O41: a command that makes `len` grow is one append, and with room it does not reach offset 4. -/
theorem payloadSizeFixedUntilReset : Obligations.PayloadSizeFixedUntilReset := by
  intro i s t _ hcap h5 hroom h hlen
  obtain ⟨b, -, rfl⟩ := exec_of_len_lt h (by omega)
  exact bufGet_bufAppend_below (by omega) (by omega)

/-- Settles O50: `RESET` gives an empty buffer, and from there the stream is delivered item by item. -/
theorem resetRecoversSynchronisation : Obligations.ResetRecoversSynchronisation := by
  intro s items hitems
  obtain ⟨hlen, hframes⟩ := afterFeed_items items (s := s.bufReset.respond .ok) rfl hitems
  refine ⟨_, (runCommands_cons _ (exec_reset s)).trans (runCommands_feed _ _), hlen, ?_⟩
  rw [hframes, framesOf_respond, bufReset_trace]

end Sys2Proof.Proofs

namespace Sys2Proof.Proofs

open Sys2Proof.Machine Sys2Proof.Laws

/-! ### The command word and its command (R69 to R72) -/

section
variable {w : CommandWord} {i : Instr}

theorem encodeFields (i : Instr) : EncodeFields.Statement i := by
  cases i with
  | process b => exact EncodeFields.process b
  | reset => exact EncodeFields.reset
  | append b => exact EncodeFields.append b
  | get k => exact EncodeFields.get k
  | length => exact EncodeFields.length
  | capacity => exact EncodeFields.capacity

/-- An operand that fits the 12-bit `arg` makes the command well-formed (R69, R70). -/
theorem wellFormed_of_argOf_lt (h : EncodeFields.argOf i < 2 ^ 12) : i.wellFormed = true := by
  cases i with
  | get k => exact decide_eq_true (Nat.le_of_lt_succ h)
  | _ => rfl

/-- A word is its `op` and its `arg` (R70). -/
theorem eq_of_fields_eq {w' : CommandWord} (hop : opField w = opField w')
    (harg : (argField w).toNat = (argField w').toNat) : w = w' :=
  (eq_iff_extractLsb' (m := 4) (n := 12)).mpr ⟨hop, BitVec.eq_of_toNat_eq harg⟩

end

/-- Settles O1: the word has the fields of its command, and these are what the decoder goes by. -/
theorem decodeEncodeGivesCommand : Obligations.DecodeEncodeGivesCommand :=
  fun i hi => decode_eq_ok_iff.mpr (encodeFields i hi)

/-- Settles O2: the word and the encoding of its command have the same fields. -/
theorem encodeDecodeGivesWord : Obligations.EncodeDecodeGivesWord := by
  intro w i h
  obtain ⟨hop, harg⟩ := decode_eq_ok_iff.mp h
  have hi : i.wellFormed = true := wellFormed_of_argOf_lt (harg ▸ (argField w).isLt)
  obtain ⟨hop', harg'⟩ := encodeFields i hi
  exact ⟨eq_of_fields_eq (hop'.trans hop.symm) (harg'.trans harg.symm), hi⟩

/-- Settles O5: each word is decoded by its own bits. -/
theorem specWordsDecodeAsTheSpecSays : Obligations.SpecWordsDecodeAsTheSpecSays := by
  unfold Obligations.SpecWordsDecodeAsTheSpecSays
  decide

/-! ### The response word (R73) -/

section
variable {r : Response}

theorem word_kind (r : Response) : r.word.extractLsb' 14 2 = r.kind :=
  BitVec.extractLsb'_append_eq_left

theorem word_value (h : r.value < 2 ^ 14) : (r.word.extractLsb' 0 14).toNat = r.value := by
  rw [Response.word, BitVec.extractLsb'_append_eq_right, BitVec.toNat_ofNat, Nat.mod_eq_of_lt h]

theorem kind_ne_three (r : Response) : r.kind ≠ 3 := by
  cases r with
  | ok => decide
  | data v => exact (by decide : (1 : BitVec 2) ≠ 3)
  | err f => exact (by decide : (2 : BitVec 2) ≠ 3)

/-- The kind stands above the 14 bits of the value. -/
theorem toNat_word (h : r.value < 2 ^ 14) : r.word.toNat = r.kind.toNat * 2 ^ 14 + r.value := by
  have hvalue : (BitVec.ofNat 14 r.value).toNat = r.value := by rw [BitVec.toNat_ofNat, Nat.mod_eq_of_lt h]
  rw [Response.word, BitVec.toNat_append, hvalue, ← Nat.shiftLeft_add_eq_or_of_lt h, Nat.shiftLeft_eq]

theorem word_data {v : Nat} (h : v < 2 ^ 14) : (Response.data v).word = 0x4000 + BitVec.ofNat 16 v := by
  apply BitVec.eq_of_toNat_eq
  have hword : (Response.data v).word.toNat = 1 * 2 ^ 14 + v := toNat_word h
  have hkind : (0x4000 : ResponseWord).toNat = 2 ^ 14 := rfl
  rw [hword, BitVec.toNat_add, BitVec.toNat_ofNat, hkind]
  omega

end

/-- Settles O6: the word is the kind above the value; the fault codes are three. -/
theorem responseWordHoldsKindAndValue : Obligations.ResponseWordHoldsKindAndValue := by
  refine fun r => ⟨word_kind r, kind_ne_three r, word_value, by decide, fun v => word_data, fun f => ?_⟩
  cases f <;> decide

end Sys2Proof.Proofs

namespace Sys2Proof.Proofs

open Sys2Proof.Machine Sys2Proof.Laws

/-! ### The script assembler (R75, R76) -/

/-- Every command of a list can be written as a command word. -/
def AllWellFormed (is : List Instr) : Prop := ∀ i ∈ is, i.wellFormed = true

section
variable {is js : List Instr}

theorem allWellFormed_singleton {i : Instr} (h : i.wellFormed = true) : AllWellFormed [i] :=
  List.forall_mem_singleton.mpr h

theorem allWellFormed_append (h : AllWellFormed is) (h' : AllWellFormed js) : AllWellFormed (is ++ js) :=
  List.forall_mem_append.mpr ⟨h, h'⟩

theorem allWellFormed_feed (bs : List Byte) : AllWellFormed (feed bs) :=
  List.forall_mem_map.mpr fun _ _ => rfl

theorem scriptIndex_le {w : List Char} {k : Nat} (h : scriptIndex w = some k) : k ≤ 4095 := by
  unfold scriptIndex at h
  split at h
  case h_1 n _ =>
    obtain ⟨hn, hk⟩ := Option.ite_none_right_eq_some.mp h
    cases hk
    exact hn
  case h_2 => cases h

theorem allWellFormed_feedFrame {h1 h2 h3 : Byte} {p : List Byte} (h : feedFrame h1 h2 h3 p = some is) :
    AllWellFormed is := by
  obtain ⟨-, his⟩ := Option.ite_none_right_eq_some.mp h
  cases his
  exact allWellFormed_feed _

theorem allWellFormed_scriptFeedFrame {ws : List (List Char)} (h : scriptFeedFrame ws = some is) :
    AllWellFormed is := by
  unfold scriptFeedFrame at h
  split at h
  case h_1 =>
    split at h
    case h_1 => exact allWellFormed_feedFrame h
    case h_2 => cases h
  case h_2 => cases h

theorem allWellFormed_assembleWords {ws : List (List Char)} (h : assembleWords ws = some is) :
    AllWellFormed is := by
  unfold assembleWords at h
  split at h
  case h_1 =>
    cases h
    exact nofun
  case h_2 =>
    obtain ⟨b, -, rfl⟩ := Option.map_eq_some_iff.mp h
    exact allWellFormed_singleton rfl
  case h_3 =>
    cases h
    exact allWellFormed_singleton rfl
  case h_4 =>
    obtain ⟨b, -, rfl⟩ := Option.map_eq_some_iff.mp h
    exact allWellFormed_singleton rfl
  case h_5 =>
    obtain ⟨k, hk, rfl⟩ := Option.map_eq_some_iff.mp h
    exact allWellFormed_singleton (decide_eq_true (scriptIndex_le hk))
  case h_6 =>
    cases h
    exact allWellFormed_singleton rfl
  case h_7 =>
    cases h
    exact allWellFormed_singleton rfl
  case h_8 =>
    obtain ⟨bs, -, rfl⟩ := Option.map_eq_some_iff.mp h
    exact allWellFormed_feed bs
  case h_9 => exact allWellFormed_scriptFeedFrame h
  case h_10 => cases h

theorem allWellFormed_assemble {lines : List (List Char)} (h : assemble lines = some is) : AllWellFormed is := by
  induction lines generalizing is with
  | nil =>
    cases h
    exact nofun
  | cons line lines ih =>
    unfold assemble at h
    split at h
    case h_1 hline hlines =>
      cases h
      exact allWellFormed_append (allWellFormed_assembleWords hline) (ih hlines)
    case h_2 => cases h

end

/-- Settles O8: the operands are bytes, or an index that `scriptIndex` has compared with 4095. -/
theorem assembledCommandsAreWellFormed : Obligations.AssembledCommandsAreWellFormed :=
  fun _ _ => allWellFormed_assemble

end Sys2Proof.Proofs

namespace Sys2Proof.Proofs

open Sys2Proof.Machine Sys2Proof.Laws

/-! ### Two machines with the same view (R48)

Every operation of a step takes two such machines to two such machines: what it tests and what it gives away is in the registers and the
content. -/

section
variable {s s' t : State}

theorem slot_of_sameView (h : s.SameView s') (i : Nat) : s.slot i = s'.slot i := by
  obtain ⟨hcfg, hstart, -⟩ := h
  rw [State.slot, State.slot, State.capacity, State.capacity, hcfg, hstart]

theorem capacity_of_sameView (h : s.SameView s') : s.capacity = s'.capacity :=
  congrArg Config.capacity h.left

theorem len_of_sameView (h : s.SameView s') : s.len = s'.len := by
  obtain ⟨-, -, hlen, -⟩ := h
  exact hlen

theorem content_of_sameView (h : s.SameView s') : s.content = s'.content := by
  obtain ⟨-, -, -, hcontent, -⟩ := h
  exact hcontent

theorem pending_of_sameView (h : s.SameView s') : s.pending = s'.pending := by
  obtain ⟨-, -, -, -, hpending, -⟩ := h
  exact hpending

theorem bufGet_of_sameView (h : s.SameView s') {i : Nat} (hi : i < s.len) : s.bufGet i = s'.bufGet i := by
  rw [← byteAt_content hi, content_of_sameView h, byteAt_content (len_of_sameView h ▸ hi)]

theorem sameView_respond (r : Response) (h : s.SameView s') : (s.respond r).SameView (s'.respond r) := by
  obtain ⟨hcfg, hstart, hlen, hcontent, hpending, htrace⟩ := h
  exact ⟨hcfg, hstart, hlen, hcontent, hpending, congrArg (· ++ [Event.response r]) htrace⟩

theorem sameView_takeCommand (h : s.SameView s') : s.takeCommand.SameView s'.takeCommand := by
  obtain ⟨hcfg, hstart, hlen, hcontent, hpending, htrace⟩ := h
  exact ⟨hcfg, hstart, hlen, hcontent, congrArg List.tail hpending, htrace⟩

theorem sameView_bufReset (h : s.SameView s') : s.bufReset.SameView s'.bufReset := by
  obtain ⟨hcfg, -, -, -, hpending, htrace⟩ := h
  exact ⟨hcfg, rfl, rfl, rfl, hpending, htrace⟩

theorem sameView_dispatchFrame (h : s.SameView s') : s.dispatchFrame.SameView s'.dispatchFrame := by
  obtain ⟨hcfg, -, hlen, hcontent, hpending, htrace⟩ := h
  refine ⟨hcfg, rfl, rfl, rfl, hpending, ?_⟩
  rw [dispatchFrame_trace, dispatchFrame_trace, hcfg, hlen, hcontent, htrace]

/-- An append writes the same cell in both, and every other cell of the content after it was in the content before. -/
theorem sameView_bufAppend (b : Byte) (h : s.SameView s') : (s.bufAppend b).SameView (s'.bufAppend b) := by
  have hslot := slot_of_sameView h
  have hget : ∀ {i}, i < s.len → s.bufGet i = s'.bufGet i := bufGet_of_sameView h
  obtain ⟨hcfg, hstart, hlen, -, hpending, htrace⟩ := h
  refine ⟨hcfg, hstart, congrArg (· + 1) hlen, ?_, hpending, htrace⟩
  rw [State.content, State.content, bufAppend_len, bufAppend_len, ← hlen]
  refine List.map_congr_left fun i hi => ?_
  rw [bufGet_bufAppend, bufGet_bufAppend, ← hlen, hslot, hslot]
  obtain hlt | rfl := Nat.lt_succ_iff_lt_or_eq.mp (List.mem_range.mp hi)
  · rw [hget hlt]
  · rw [if_pos rfl, if_pos rfl]

theorem sameView_capacityGuard (h : s.SameView s') : s.capacityGuard.SameView s'.capacityGuard := by
  have hguard : s.guardFires = s'.guardFires := by
    rw [Bool.eq_iff_iff, guardFires_iff, guardFires_iff, len_of_sameView h, capacity_of_sameView h]
  unfold State.capacityGuard
  rw [← hguard]
  split
  · exact sameView_bufReset h
  · exact h

theorem sameView_accept (b : Byte) (h : s.SameView s') : (s.accept b).SameView (s'.accept b) :=
  sameView_bufAppend b (sameView_capacityGuard h)

theorem sameView_complete (h : s.SameView s') : s.complete.SameView s'.complete := by
  rw [complete_eq, complete_eq, ← content_of_sameView h]
  split
  · exact sameView_dispatchFrame h
  · exact h

theorem sameView_processByte (b : Byte) (h : s.SameView s') : (s.processByte b).SameView (s'.processByte b) := by
  have hnoise : s.isNoise b = s'.isNoise b := by rw [State.isNoise, State.isNoise, len_of_sameView h]
  unfold State.processByte
  rw [← hnoise]
  split
  · exact h
  · exact sameView_complete (sameView_accept b h)

theorem sameView_exec {i : Instr} (h : s.SameView s') (hexec : exec i s = .next t) :
    ∃ t', exec i s' = .next t' ∧ t.SameView t' := by
  have hcap := capacity_of_sameView h
  have hlen := len_of_sameView h
  cases i with
  | process b =>
    cases (exec_process b s).symm.trans hexec
    exact ⟨_, exec_process b s', sameView_respond _ (sameView_processByte b h)⟩
  | reset =>
    cases (exec_reset s).symm.trans hexec
    exact ⟨_, exec_reset s', sameView_respond _ (sameView_bufReset h)⟩
  | append b =>
    obtain hroom | hover := le_or_gt s.len s.capacity
    · cases (exec_append_room b hroom).symm.trans hexec
      exact ⟨_, exec_append_room b (by omega), sameView_respond _ (sameView_bufAppend b h)⟩
    · cases (exec_append_over b hover).symm.trans hexec
      exact ⟨_, exec_append_over b (by omega), sameView_respond _ h⟩
  | get k =>
    obtain hin | hout := lt_or_ge k s.len
    · cases (exec_get_inside hin).symm.trans hexec
      rw [bufGet_of_sameView h hin]
      exact ⟨_, exec_get_inside (by omega), sameView_respond _ h⟩
    · cases (exec_get_outside hout).symm.trans hexec
      exact ⟨_, exec_get_outside (by omega), sameView_respond _ h⟩
  | length =>
    cases (exec_length s).symm.trans hexec
    rw [hlen]
    exact ⟨_, exec_length s', sameView_respond _ h⟩
  | capacity =>
    cases (exec_capacity s).symm.trans hexec
    rw [hcap]
    exact ⟨_, exec_capacity s', sameView_respond _ h⟩

theorem sameView_step (h : s.SameView s') (hstep : step s = .next t) : ∃ t', step s' = .next t' ∧ t.SameView t' := by
  have hpending := pending_of_sameView h
  obtain ⟨hnil, rfl⟩ | ⟨w, rest, i, hw, hd, hexec⟩ | ⟨w, rest, e, hw, hd, rfl⟩ := step_cases hstep
  · exact ⟨s', step_of_pending_eq_nil (hpending ▸ hnil), h⟩
  · rw [step_of_decode_eq_ok (hpending ▸ hw) hd]
    exact sameView_exec (sameView_takeCommand h) hexec
  · exact ⟨_, step_eq_illegalWord (hpending ▸ hw) hd, sameView_respond _ (sameView_takeCommand h)⟩

theorem core_run_succ {k : Nat} (h : step s = .next t) : core.run (k + 1) s = core.run k t := by
  simp only [Host.Core.run, Host.Check.core_step, h]

theorem sameView_run {k : Nat} (h : s.SameView s') (hrun : core.run k s = .next t) :
    ∃ t', core.run k s' = .next t' ∧ t.SameView t' := by
  induction k generalizing s s' with
  | zero =>
    cases hrun
    exact ⟨s', rfl, h⟩
  | succ k ih =>
    obtain ⟨u, hu⟩ := exists_step_eq_next s
    obtain ⟨u', hu', hview⟩ := sameView_step h hu
    rw [core_run_succ hu] at hrun
    rw [core_run_succ hu']
    exact ih hview hrun

end

/-- Settles O53: what a step tests and gives away is in the registers, the content and what is pending. -/
theorem stepReadsOnlyLogicalContent : Obligations.StepReadsOnlyLogicalContent :=
  fun _ _ _ h hstep => sameView_step h hstep

/-- Settles O54: after hardware reset the content is empty, whatever the storage, and every step keeps the view the same. -/
theorem powerOnStorageIsUnobservable : Obligations.PowerOnStorageIsUnobservable := by
  intro cfg m m' ws k t hrun
  have hview : (State.powerOn cfg m ws).SameView (State.powerOn cfg m' ws) := ⟨rfl, rfl, rfl, rfl, rfl, rfl⟩
  obtain ⟨t', hrun', -, -, -, hcontent, -, htrace⟩ := sameView_run hview hrun
  exact ⟨t', hrun', htrace.symm, hcontent.symm⟩

end Sys2Proof.Proofs
